-- ==== Sys2Proof/Config.lean ====
section
/-! DEFINITION. What is fixed for the machine: every implementation parameter of R6 with the value the spec gives, and
the free values, which are opaque constants with no body. Nothing here changes as the machine runs. The machine's types
(Word.lean, Machine/State.lean) take their widths and counts from here: `delta% c` stands for the value of `c`. -/

namespace Sys2Proof

/-- The two run modes (R32). They decide when cycles run, not what an instruction may do (R120). -/
inductive RunMode where
  | standard
  | debug
  deriving DecidableEq, Repr

/-- `ODD_TARGET_POLICY` (R69, D8). -/
inductive OddTargetPolicy where
  | fault
  | allow
  deriving DecidableEq, Repr

/-- `SYS_POLICY` (R94, D9). -/
inductive SysPolicy where
  | fault
  | nop
  deriving DecidableEq, Repr

/-- `SHIFT_SOURCE` (R82, R84, D10). -/
inductive ShiftSource where
  | vx
  | vy
  deriving DecidableEq, Repr

/-- `JUMP_OFFSET_REG` (R98, D12). -/
inductive JumpOffsetReg where
  | v0
  | vx
  deriving DecidableEq, Repr

/-- `KEY_INDEX_POLICY` (R93, D18). -/
inductive KeyIndexPolicy where
  | fault
  | mask
  deriving DecidableEq, Repr

namespace Config

/-! ### Sizes (R6; unaudited literals of the source, R3, log 37) -/

/-- `MEM_SIZE`: addresses 0..4095 (R6, R36). -/
def memSize : Nat := 4096

/-- `PROG_BASE` (R6): where a program image is loaded and where `pc` starts (R144). -/
def progBase : Nat := 0x200

/-- `MAX_PROG_LEN` = `MEM_SIZE - PROG_BASE` = 3584 (R6, R141). -/
def maxProgLen : Nat := memSize - progBase

/-- `NUM_V` (R6, R16): the number of data registers. -/
def numV : Nat := 16

/-- The width of a data register (`NUM_V` row of R6: "8 bits each"). -/
def vWidth : Nat := 8

/-- `FLAG_REG` (R6): VF, index 15. -/
def flagReg : Fin (delta% numV) := 15

/-- `I_WIDTH` (R6, R19). -/
def iWidth : Nat := 16

/-- `PC_WIDTH` (R6, R20). -/
def pcWidth : Nat := 16

/-- `STACK_DEPTH` (R6, R23). -/
def stackDepth : Nat := 16

/-- The number of values `SP` takes, 0..`STACK_DEPTH` (R23). -/
def spValues : Nat := 17

/-- The width of a stack slot (`STACK_DEPTH` row of R6: "16 entries of 16 bits"). -/
def slotWidth : Nat := 16

/-- `DISP_W` (R6, R31): columns of the display. -/
def dispW : Nat := 64

/-- `DISP_H` (R6, R31): rows of the display. -/
def dispH : Nat := 32

/-- `NUM_KEYS` (R6, R29). -/
def numKeys : Nat := 16

/-- `TIMER_WIDTH` (R6, R27): of `DT` and of `ST`. -/
def timerWidth : Nat := 8

/-- `INSN_WIDTH` (R6): an opcode is two bytes. -/
def insnWidth : Nat := 2

/-! ### Font (R6, R38; PRESUMED by the spec from general knowledge, D6, G6, log 9: unsafe) -/

/-- `FONT_BASE` (R6, D6). -/
def fontBase : Nat := 0x000

/-- `FONT_GLYPH_BYTES` (R6): 5 row bytes a glyph. -/
def glyphBytes : Nat := 5

/-- `FONT_DATA` (R38): the 16 glyphs, one line for each digit. -/
def fontData : List (BitVec 8) :=
  [0xF0#8, 0x90#8, 0x90#8, 0x90#8, 0xF0#8] ++
  [0x20#8, 0x60#8, 0x20#8, 0x20#8, 0x70#8] ++
  [0xF0#8, 0x10#8, 0xF0#8, 0x80#8, 0xF0#8] ++
  [0xF0#8, 0x10#8, 0xF0#8, 0x10#8, 0xF0#8] ++
  [0x90#8, 0x90#8, 0xF0#8, 0x10#8, 0x10#8] ++
  [0xF0#8, 0x80#8, 0xF0#8, 0x10#8, 0xF0#8] ++
  [0xF0#8, 0x80#8, 0xF0#8, 0x90#8, 0xF0#8] ++
  [0xF0#8, 0x10#8, 0x20#8, 0x40#8, 0x40#8] ++
  [0xF0#8, 0x90#8, 0xF0#8, 0x90#8, 0xF0#8] ++
  [0xF0#8, 0x90#8, 0xF0#8, 0x10#8, 0xF0#8] ++
  [0xF0#8, 0x90#8, 0xF0#8, 0x90#8, 0x90#8] ++
  [0xE0#8, 0x90#8, 0xE0#8, 0x90#8, 0xE0#8] ++
  [0xF0#8, 0x80#8, 0x80#8, 0x80#8, 0xF0#8] ++
  [0xE0#8, 0x90#8, 0x90#8, 0x90#8, 0xE0#8] ++
  [0xF0#8, 0x80#8, 0xF0#8, 0x80#8, 0xF0#8] ++
  [0xF0#8, 0x80#8, 0xF0#8, 0x80#8, 0x80#8]

/-! ### Policies (R6; each a DESIGN CHOICE the spec marks as its own, its log entry beside it) -/

/-- `ODD_TARGET_POLICY` = fault (DESIGN CHOICE, D8, log 13: safe). -/
def oddTargetPolicy : OddTargetPolicy := .fault

/-- `SYS_POLICY` = fault (DESIGN CHOICE, D9, log 14: unsafe). -/
def sysPolicy : SysPolicy := .fault

/-- `SHIFT_SOURCE` = VX (DESIGN CHOICE, D10, log 15: unsafe). -/
def shiftSource : ShiftSource := .vx

/-- `LOGIC_CLEARS_VF` = false (DESIGN CHOICE, D11, log 16: unsafe). -/
def logicClearsVF : Bool := false

/-- `JUMP_OFFSET_REG` = V0 (DESIGN CHOICE, D12, log 17: unsafe). -/
def jumpOffsetReg : JumpOffsetReg := .v0

/-- `MEM_INCREMENTS_I` = false (DESIGN CHOICE, D13, log 18: unsafe). -/
def memIncrementsI : Bool := false

/-- `KEY_INDEX_POLICY` = fault (DESIGN CHOICE, D18, log 22: safe). -/
def keyIndexPolicy : KeyIndexPolicy := .fault

/-- `LOW_REGION_WRITABLE` = true (DESIGN CHOICE, D7, C1, log 12: unsafe). With false, `memWrite` raises
`Fault.lowRegionWrite` below `PROG_BASE`: "a model with false must add a fault kind of its own" (D7). -/
def lowRegionWritable : Bool := true

/-! ### Reset values (R6, R143; DESIGN CHOICE, D4, D5, D27, logs 6, 7, 8: unsafe) -/

/-- `RESET_V` (D4, log 7). -/
def resetV : BitVec (delta% vWidth) := 0#8

/-- `RESET_I` (D4, log 7). -/
def resetI : BitVec (delta% iWidth) := 0#16

/-- `RESET_SP`: the empty stack (D4, log 7). -/
def resetSP : Fin (delta% spValues) := 0

/-- `RESET_STACK` (D4, log 7; unobservable, R25). -/
def resetStack : BitVec (delta% slotWidth) := 0#16

/-- `RESET_DT` (D4, log 7). -/
def resetDT : BitVec (delta% timerWidth) := 0#8

/-- `RESET_ST` (D4, log 7). -/
def resetST : BitVec (delta% timerWidth) := 0#8

/-- `MEM_FILL` (D5, log 8): what memory outside the glyphs and the program holds at boot. -/
def memFill : BitVec 8 := 0#8

/-- `INITIAL_MODE`, the boot argument (R145, D27), as State.reset takes it (DESIGN CHOICE, log 6).
The function `boot` takes either run mode. -/
def initialMode : RunMode := .standard

/-! ### Rates (R6, R149: informative; no rule and no definition of the model depends on them, log 35) -/

/-- `TICK_RATE` in ticks per second ("conventionally 1/60 second"). -/
def tickRate : Nat := 60

/-- `CYCLE_RATE`: configured, "several hundred to ~1000 cycles per second"; the spec fixes no value. -/
opaque cycleRate : Nat

/-! ### Free values -/

/-- The random byte of the cycle (R85, D15, log 3): "a free input of the cycle under no law". Applied to the
counter `draws` of State, so that each one taken is fresh. -/
opaque randomByte : Nat → BitVec 8

/-- The state components a fatal error leaves unspecified (R68, D22, log 2), as raw values. -/
structure Unspecified where
  cells : List (Nat × BitVec 8)
  v : Vector (BitVec (delta% vWidth)) (delta% numV)
  i : BitVec (delta% iWidth)
  pc : BitVec (delta% pcWidth)
  stack : Vector (BitVec (delta% slotWidth)) (delta% stackDepth)
  sp : Fin (delta% spValues)
  dt : BitVec (delta% timerWidth)
  st : BitVec (delta% timerWidth)
  disp : Vector (Vector Bool (delta% dispH)) (delta% dispW)
  keys : Vector Bool (delta% numKeys)
  deriving Inhabited

/-- What the components other than `mode` hold after a fatal error: "every state component other than `mode` is
unspecified after a fault, and a model must treat it as any value" (R68). Applied to `draws`. -/
opaque afterError : Nat → Unspecified

end Config

end Sys2Proof
end

