-- ==== Sys2Proof/Word.lean ====
section
/-! DEFINITION. The machine's plain types: bytes, words, register and key numbers, the display grid.
Rules R10, R15, R16, R29, R31, R53 of spec/. -/

namespace Sys2Proof

/-- `u8` (R10): a data register, a timer, a byte of memory, the immediate `NN`. -/
abbrev Byte := BitVec 8

/-- `u16` (R10): `I`, `pc`, a stack slot, an opcode. -/
abbrev Word := BitVec 16

/-- The 12-bit address field `NNN` (R53). -/
abbrev Addr12 := BitVec 12

/-- A hexadecimal digit (R8): a nibble of an opcode, the sprite height `N`. -/
abbrev Nibble := BitVec 4

/-- The number of a data register `V0`..`VF` (R16); the fields `X` and `Y` (R54: all 16 are legal). -/
abbrev RegIndex := Fin (delta% Config.numV)

/-- The number of a key, 0..15 (R29). -/
abbrev KeyIndex := Fin (delta% Config.numKeys)

/-- A column of the display, 0..63 (R31). -/
abbrev Column := Fin (delta% Config.dispW)

/-- A row of the display, 0..31 (R31). -/
abbrev Row := Fin (delta% Config.dispH)

/-- `disp[column][row]`, true = set (R15, R31). -/
abbrev Display := Vector (Vector Bool (delta% Config.dispH)) (delta% Config.dispW)

end Sys2Proof
end

