-- ==== Sys2Proof/Syntax.lean ====
section
/-! DEFINITION. The instruction set: the 35 forms of the opcode map (R56), one constructor for each row of
spec/opcode_table.json, in the table's order. Operands are the fields of R53, already taken apart (R54). -/

namespace Sys2Proof

/-- The forms of R56. `x`, `y` are register numbers, `nn` an 8-bit immediate, `nnn` a 12-bit address, `n` a 4-bit count. -/
inductive Instr where
  /-- `00E0` CLS (R103). -/
  | cls
  /-- `00EE` RET (R95). -/
  | ret
  /-- `0NNN` SYS addr (R94). -/
  | sys (nnn : Addr12)
  /-- `1NNN` JP addr (R96). -/
  | jp (nnn : Addr12)
  /-- `2NNN` CALL addr (R97). -/
  | call (nnn : Addr12)
  /-- `3XNN` SE Vx, byte (R87). -/
  | seByte (x : RegIndex) (nn : Byte)
  /-- `4XNN` SNE Vx, byte (R88). -/
  | sneByte (x : RegIndex) (nn : Byte)
  /-- `5XY0` SE Vx, Vy (R89). -/
  | seReg (x y : RegIndex)
  /-- `6XNN` LD Vx, byte (R74). -/
  | ldByte (x : RegIndex) (nn : Byte)
  /-- `7XNN` ADD Vx, byte (R75). -/
  | addByte (x : RegIndex) (nn : Byte)
  /-- `8XY0` LD Vx, Vy (R76). -/
  | ldReg (x y : RegIndex)
  /-- `8XY1` OR Vx, Vy (R77). -/
  | orReg (x y : RegIndex)
  /-- `8XY2` AND Vx, Vy (R78). -/
  | andReg (x y : RegIndex)
  /-- `8XY3` XOR Vx, Vy (R79). -/
  | xorReg (x y : RegIndex)
  /-- `8XY4` ADD Vx, Vy (R80). -/
  | addReg (x y : RegIndex)
  /-- `8XY5` SUB Vx, Vy (R81). -/
  | subReg (x y : RegIndex)
  /-- `8XY6` SHR Vx, with its `Y` field (R82). -/
  | shr (x y : RegIndex)
  /-- `8XY7` SUBN Vx, Vy (R83). -/
  | subn (x y : RegIndex)
  /-- `8XYE` SHL Vx, with its `Y` field (R84). -/
  | shl (x y : RegIndex)
  /-- `9XY0` SNE Vx, Vy (R90). -/
  | sneReg (x y : RegIndex)
  /-- `ANNN` LD I, addr (R108). -/
  | ldI (nnn : Addr12)
  /-- `BNNN` JP V0, addr (R98). -/
  | jpV0 (nnn : Addr12)
  /-- `CXNN` RND Vx, byte (R85). -/
  | rnd (x : RegIndex) (nn : Byte)
  /-- `DXYN` DRW Vx, Vy, nibble (R104). -/
  | drw (x y : RegIndex) (n : Nibble)
  /-- `EX9E` SKP Vx (R91). -/
  | skp (x : RegIndex)
  /-- `EXA1` SKNP Vx (R92). -/
  | sknp (x : RegIndex)
  /-- `FX07` LD Vx, DT (R100). -/
  | ldFromDT (x : RegIndex)
  /-- `FX0A` LD Vx, K (R99). -/
  | ldKey (x : RegIndex)
  /-- `FX15` LD DT, Vx (R101). -/
  | ldToDT (x : RegIndex)
  /-- `FX18` LD ST, Vx (R102). -/
  | ldToST (x : RegIndex)
  /-- `FX1E` ADD I, Vx (R109). -/
  | addI (x : RegIndex)
  /-- `FX29` LD F, Vx (R110). -/
  | ldGlyph (x : RegIndex)
  /-- `FX33` LD B, Vx (R111). -/
  | ldBcd (x : RegIndex)
  /-- `FX55` LD [I], Vx (R112). -/
  | dump (x : RegIndex)
  /-- `FX65` LD Vx, [I] (R113). -/
  | load (x : RegIndex)
  deriving DecidableEq, Repr

end Sys2Proof
end

