-- ==== Sys2Proof/WellFormed.lean ====
section
/-! DEFINITION. Which terms of Instr are instructions of the machine. Register numbers, immediates and counts cannot
be out of range (their types are their ranges, R54); the one check is R57's. -/

namespace Sys2Proof

/-- R57: the words 0x00E0 and 0x00EE are CLS and RET, so no SYS has `NNN` = 0x0E0 or 0x0EE. -/
def Instr.wellFormed : Instr → Bool
  | .sys nnn => nnn != 0x0E0#12 && nnn != 0x0EE#12
  | .cls => true
  | .ret => true
  | .jp _ => true
  | .call _ => true
  | .seByte _ _ => true
  | .sneByte _ _ => true
  | .seReg _ _ => true
  | .ldByte _ _ => true
  | .addByte _ _ => true
  | .ldReg _ _ => true
  | .orReg _ _ => true
  | .andReg _ _ => true
  | .xorReg _ _ => true
  | .addReg _ _ => true
  | .subReg _ _ => true
  | .shr _ _ => true
  | .subn _ _ => true
  | .shl _ _ => true
  | .sneReg _ _ => true
  | .ldI _ => true
  | .jpV0 _ => true
  | .rnd _ _ => true
  | .drw _ _ _ => true
  | .skp _ => true
  | .sknp _ => true
  | .ldFromDT _ => true
  | .ldKey _ => true
  | .ldToDT _ => true
  | .ldToST _ => true
  | .addI _ => true
  | .ldGlyph _ => true
  | .ldBcd _ => true
  | .dump _ => true
  | .load _ => true

/-- The instruction is one the decoder can give. -/
abbrev Instr.WellFormed (i : Instr) : Prop := i.wellFormed = true

end Sys2Proof
end

