-- ==== Sys2Proof/Decode.lean ====
section
/-! DEFINITION. Decoding and encoding of opcodes (30_encoding.md, R52 to R60). The decoder matches on the nibbles of
the 16-bit opcode (R55); the opcode map of R56 stands beside it as data. The bit patterns are the CHIP-8 table, which
the spec supplies from general knowledge (PRESUMED, D1, G2, G3, log 11: unsafe). -/

namespace Sys2Proof

/-! ### Fields (R53) -/

/-- `c`, the class nibble `op[15:12]`. -/
def fieldC (op : Word) : Nibble := op.extractLsb' 12 4

/-- `X` = `op[11:8]`. -/
def fieldX (op : Word) : RegIndex := (op.extractLsb' 8 4).toFin

/-- `Y` = `op[7:4]`. -/
def fieldY (op : Word) : RegIndex := (op.extractLsb' 4 4).toFin

/-- `N` = `op[3:0]`. -/
def fieldN (op : Word) : Nibble := op.extractLsb' 0 4

/-- `NN` = `op[7:0]`. -/
def fieldNN (op : Word) : Byte := op.extractLsb' 0 8

/-- `NNN` = `op[11:0]`. -/
def fieldNNN (op : Word) : Addr12 := op.extractLsb' 0 12

/-! ### Decoding -/

/-- Why the decoder gives no instruction. -/
inductive DecodeReject where
  /-- The opcode matches no row of R56 (R58). The cycle raises `UnknownOpcode(op)`. -/
  | unknownOpcode (op : Word)
  /-- Fewer bytes than one opcode, which is always two (R52). The fetch never gives this. -/
  | tooShort
  deriving DecidableEq, Repr

/-- Class 0x0 (R57): `00E0` and `00EE` are tested first, every other opcode is SYS. -/
def decodeClass0 (op : Word) : Instr :=
  if op = 0x00E0#16 then .cls else if op = 0x00EE#16 then .ret else .sys (fieldNNN op)

/-- Class 0x8 (rows 11 to 19): the form is the low nibble. -/
def decodeClass8 (op : Word) : Except DecodeReject Instr :=
  match (fieldN op).toNat with
  | 0x0 => .ok (.ldReg (fieldX op) (fieldY op))
  | 0x1 => .ok (.orReg (fieldX op) (fieldY op))
  | 0x2 => .ok (.andReg (fieldX op) (fieldY op))
  | 0x3 => .ok (.xorReg (fieldX op) (fieldY op))
  | 0x4 => .ok (.addReg (fieldX op) (fieldY op))
  | 0x5 => .ok (.subReg (fieldX op) (fieldY op))
  | 0x6 => .ok (.shr (fieldX op) (fieldY op))
  | 0x7 => .ok (.subn (fieldX op) (fieldY op))
  | 0xE => .ok (.shl (fieldX op) (fieldY op))
  | _ => .error (.unknownOpcode op)

/-- Class 0xE (rows 25, 26): the form is the low byte. -/
def decodeClassE (op : Word) : Except DecodeReject Instr :=
  match (fieldNN op).toNat with
  | 0x9E => .ok (.skp (fieldX op))
  | 0xA1 => .ok (.sknp (fieldX op))
  | _ => .error (.unknownOpcode op)

/-- Class 0xF (rows 27 to 35): the form is the low byte. -/
def decodeClassF (op : Word) : Except DecodeReject Instr :=
  match (fieldNN op).toNat with
  | 0x07 => .ok (.ldFromDT (fieldX op))
  | 0x0A => .ok (.ldKey (fieldX op))
  | 0x15 => .ok (.ldToDT (fieldX op))
  | 0x18 => .ok (.ldToST (fieldX op))
  | 0x1E => .ok (.addI (fieldX op))
  | 0x29 => .ok (.ldGlyph (fieldX op))
  | 0x33 => .ok (.ldBcd (fieldX op))
  | 0x55 => .ok (.dump (fieldX op))
  | 0x65 => .ok (.load (fieldX op))
  | _ => .error (.unknownOpcode op)

/-- Classes 0x5 and 0x9 (rows 8, 20): the low nibble is 0, anything else is unknown (R58). -/
def decodeXY0 (op : Word) (form : Instr) : Except DecodeReject Instr :=
  if fieldN op = 0x0#4 then .ok form else .error (.unknownOpcode op)

/-- `decode` of R55: a pure, total function of the opcode alone. -/
def decodeWord (op : Word) : Except DecodeReject Instr :=
  match (fieldC op).toNat with
  | 0x0 => .ok (decodeClass0 op)
  | 0x1 => .ok (.jp (fieldNNN op))
  | 0x2 => .ok (.call (fieldNNN op))
  | 0x3 => .ok (.seByte (fieldX op) (fieldNN op))
  | 0x4 => .ok (.sneByte (fieldX op) (fieldNN op))
  | 0x5 => decodeXY0 op (.seReg (fieldX op) (fieldY op))
  | 0x6 => .ok (.ldByte (fieldX op) (fieldNN op))
  | 0x7 => .ok (.addByte (fieldX op) (fieldNN op))
  | 0x8 => decodeClass8 op
  | 0x9 => decodeXY0 op (.sneReg (fieldX op) (fieldY op))
  | 0xA => .ok (.ldI (fieldNNN op))
  | 0xB => .ok (.jpV0 (fieldNNN op))
  | 0xC => .ok (.rnd (fieldX op) (fieldNN op))
  | 0xD => .ok (.drw (fieldX op) (fieldY op) (fieldN op))
  | 0xE => decodeClassE op
  | _ => decodeClassF op

/-! ### Bytes: the opcode is big-endian (R42, R64; PRESUMED by the spec, D2, G5, log 10: unsafe) -/

/-- `op <- hi ++ lo` (R64). -/
def wordOfBytes (hi lo : Byte) : Word := hi ++ lo

/-- `op[15:8]`, the byte at the lower address. -/
def highByte (op : Word) : Byte := op.extractLsb' 8 8

/-- `op[7:0]`, the byte at the higher address. -/
def lowByte (op : Word) : Byte := op.extractLsb' 0 8

/-- Decoding of a list of bytes: the first instruction and the bytes after it. Total, rejecting by name. -/
def decodeBytes : List Byte → Except DecodeReject (Instr × List Byte)
  | hi :: lo :: rest =>
    match decodeWord (wordOfBytes hi lo) with
    | .ok i => .ok (i, rest)
    | .error r => .error r
  | _ => .error .tooShort

/-- An instruction of the opcode table given as a number, bit 0 the least significant of its one 16-bit word; the
bits above `nbits` are 0. -/
def tableWord (nbits w : Nat) : Word := BitVec.ofNat 16 (w % 2 ^ nbits)

/-- The instruction the decoder reads from the table's word, laid out in memory order. -/
def decodeTableWord (nbits w : Nat) : Option Instr :=
  match decodeBytes [highByte (tableWord nbits w), lowByte (tableWord nbits w)] with
  | .ok (i, _) => some i
  | .error _ => none

/-! ### Encoding -/

/-- A register number as the nibble that selects it. -/
def regNibble (x : RegIndex) : Nibble := BitVec.ofFin x

/-- Form `cNNN`. -/
def encodeNNN (c : Nibble) (nnn : Addr12) : Word := c ++ nnn

/-- Form `cXNN`. -/
def encodeXNN (c : Nibble) (x : RegIndex) (nn : Byte) : Word := c ++ (regNibble x ++ nn)

/-- Form `cXYN`. -/
def encodeXYN (c : Nibble) (x y : RegIndex) (n : Nibble) : Word := c ++ (regNibble x ++ (regNibble y ++ n))

/-- The opcode of an instruction, from the templates of R56. -/
def encode : Instr → Word
  | .cls => 0x00E0#16
  | .ret => 0x00EE#16
  | .sys nnn => encodeNNN 0x0#4 nnn
  | .jp nnn => encodeNNN 0x1#4 nnn
  | .call nnn => encodeNNN 0x2#4 nnn
  | .seByte x nn => encodeXNN 0x3#4 x nn
  | .sneByte x nn => encodeXNN 0x4#4 x nn
  | .seReg x y => encodeXYN 0x5#4 x y 0x0#4
  | .ldByte x nn => encodeXNN 0x6#4 x nn
  | .addByte x nn => encodeXNN 0x7#4 x nn
  | .ldReg x y => encodeXYN 0x8#4 x y 0x0#4
  | .orReg x y => encodeXYN 0x8#4 x y 0x1#4
  | .andReg x y => encodeXYN 0x8#4 x y 0x2#4
  | .xorReg x y => encodeXYN 0x8#4 x y 0x3#4
  | .addReg x y => encodeXYN 0x8#4 x y 0x4#4
  | .subReg x y => encodeXYN 0x8#4 x y 0x5#4
  | .shr x y => encodeXYN 0x8#4 x y 0x6#4
  | .subn x y => encodeXYN 0x8#4 x y 0x7#4
  | .shl x y => encodeXYN 0x8#4 x y 0xE#4
  | .sneReg x y => encodeXYN 0x9#4 x y 0x0#4
  | .ldI nnn => encodeNNN 0xA#4 nnn
  | .jpV0 nnn => encodeNNN 0xB#4 nnn
  | .rnd x nn => encodeXNN 0xC#4 x nn
  | .drw x y n => encodeXYN 0xD#4 x y n
  | .skp x => encodeXNN 0xE#4 x 0x9E#8
  | .sknp x => encodeXNN 0xE#4 x 0xA1#8
  | .ldFromDT x => encodeXNN 0xF#4 x 0x07#8
  | .ldKey x => encodeXNN 0xF#4 x 0x0A#8
  | .ldToDT x => encodeXNN 0xF#4 x 0x15#8
  | .ldToST x => encodeXNN 0xF#4 x 0x18#8
  | .addI x => encodeXNN 0xF#4 x 0x1E#8
  | .ldGlyph x => encodeXNN 0xF#4 x 0x29#8
  | .ldBcd x => encodeXNN 0xF#4 x 0x33#8
  | .dump x => encodeXNN 0xF#4 x 0x55#8
  | .load x => encodeXNN 0xF#4 x 0x65#8

/-- The two bytes of an instruction in memory order (R42). -/
def encodeBytes (i : Instr) : List Byte := [highByte (encode i), lowByte (encode i)]

/-! ### The opcode map of R56 as data -/

/-- A row of R56: an opcode `op` is the form when `op AND mask = value`. -/
structure OpcodeRow where
  mask : Word
  value : Word
  deriving DecidableEq, Repr

/-- The rows of R56 in their order; the first that matches wins. -/
def opcodeMap : List OpcodeRow :=
  [⟨0xFFFF, 0x00E0⟩, ⟨0xFFFF, 0x00EE⟩, ⟨0xF000, 0x0000⟩, ⟨0xF000, 0x1000⟩, ⟨0xF000, 0x2000⟩, ⟨0xF000, 0x3000⟩,
   ⟨0xF000, 0x4000⟩, ⟨0xF00F, 0x5000⟩, ⟨0xF000, 0x6000⟩, ⟨0xF000, 0x7000⟩] ++
  [⟨0xF00F, 0x8000⟩, ⟨0xF00F, 0x8001⟩, ⟨0xF00F, 0x8002⟩, ⟨0xF00F, 0x8003⟩, ⟨0xF00F, 0x8004⟩, ⟨0xF00F, 0x8005⟩,
   ⟨0xF00F, 0x8006⟩, ⟨0xF00F, 0x8007⟩, ⟨0xF00F, 0x800E⟩, ⟨0xF00F, 0x9000⟩] ++
  [⟨0xF000, 0xA000⟩, ⟨0xF000, 0xB000⟩, ⟨0xF000, 0xC000⟩, ⟨0xF000, 0xD000⟩, ⟨0xF0FF, 0xE09E⟩, ⟨0xF0FF, 0xE0A1⟩] ++
  [⟨0xF0FF, 0xF007⟩, ⟨0xF0FF, 0xF00A⟩, ⟨0xF0FF, 0xF015⟩, ⟨0xF0FF, 0xF018⟩, ⟨0xF0FF, 0xF01E⟩, ⟨0xF0FF, 0xF029⟩,
   ⟨0xF0FF, 0xF033⟩, ⟨0xF0FF, 0xF055⟩, ⟨0xF0FF, 0xF065⟩]

/-- The number of an instruction's row in R56, 1 to 35. -/
def Instr.row : Instr → Nat
  | .cls => 1
  | .ret => 2
  | .sys _ => 3
  | .jp _ => 4
  | .call _ => 5
  | .seByte _ _ => 6
  | .sneByte _ _ => 7
  | .seReg _ _ => 8
  | .ldByte _ _ => 9
  | .addByte _ _ => 10
  | .ldReg _ _ => 11
  | .orReg _ _ => 12
  | .andReg _ _ => 13
  | .xorReg _ _ => 14
  | .addReg _ _ => 15
  | .subReg _ _ => 16
  | .shr _ _ => 17
  | .subn _ _ => 18
  | .shl _ _ => 19
  | .sneReg _ _ => 20
  | .ldI _ => 21
  | .jpV0 _ => 22
  | .rnd _ _ => 23
  | .drw _ _ _ => 24
  | .skp _ => 25
  | .sknp _ => 26
  | .ldFromDT _ => 27
  | .ldKey _ => 28
  | .ldToDT _ => 29
  | .ldToST _ => 30
  | .addI _ => 31
  | .ldGlyph _ => 32
  | .ldBcd _ => 33
  | .dump _ => 34
  | .load _ => 35

/-- Row `op` falls under in R56: the number (1 to 35) of the first row that matches, if any. -/
def rowOfWord (op : Word) : Option Nat :=
  (opcodeMap.findIdx? fun r => op &&& r.mask == r.value).map (· + 1)

end Sys2Proof
end

