-- ==== Sys2Proof/Machine/State.lean ====
section
/-! DEFINITION. The machine's state as plain data (10_state.md, R15 to R35), the fatal errors (R114), the host's events
and the CORE's output signals (R131, R138), and the state after reset (R143). -/

namespace Sys2Proof.Machine

/-- The fatal errors of R114, with the information each records besides the `pc` of its cycle. A meaning never answers
the outcome `fault`: every error is TAKEN, as R68 describes, by a next state whose mode is `Halted(e)` (log 1: safe). -/
inductive Fault where
  /-- A program image longer than 3584 bytes. Raised by boot (R141). Safe: the spec's own error. -/
  | programTooLarge (len : Nat)
  /-- A program image of length 0. Raised by boot (R142; the name is the spec's decision D23). Safe. -/
  | emptyProgram
  /-- An address of 4096 or more. Raised by fetch, DXYN, FX33, FX55 and FX65 (R39, R40, R64). Safe. -/
  | outOfRangeMemoryAccess (addr : Nat)
  /-- A push with `SP = 16`; records the `pc` of the CALL. Raised by 2NNN (R24). Safe. -/
  | stackOverflow (pc : Word)
  /-- A pop with `SP = 0`; records the `pc` of the RET. Raised by 00EE (R25). Safe. -/
  | stackUnderflow (pc : Word)
  /-- An opcode that matches no form, or SYS. Raised by decode and by 0NNN (R58, R94; SYS is D9). Safe. -/
  | unknownOpcode (op : Word)
  /-- An odd control-transfer target. Raised by 1NNN, 2NNN and BNNN (R69, D8). Safe. -/
  | misalignedProgramCounter (target : Nat)
  /-- A key operand above 15. Raised by EX9E and EXA1 (R93, D18). Safe. -/
  | invalidKeyIndex (v : Byte)
  /-- A store below `PROG_BASE` where `LOW_REGION_WRITABLE` is false: the kind D7 asks of such a model. Raised by FX33 and
  FX55, and by no step while the parameter has the decided value true (log 12). Safe. -/
  | lowRegionWrite (addr : Nat)
  deriving DecidableEq, Repr

/-- "The kinds may be numbered 0..7 in the order of R114's table" (DESIGN CHOICE, D22, log 36: safe; nothing reads it). The kind of D7 stands in no row of the table. -/
def Fault.number : Fault → Option Nat
  | .programTooLarge _ => some 0
  | .emptyProgram => some 1
  | .outOfRangeMemoryAccess _ => some 2
  | .stackOverflow _ => some 3
  | .stackUnderflow _ => some 4
  | .unknownOpcode _ => some 5
  | .misalignedProgramCounter _ => some 6
  | .invalidKeyIndex _ => some 7
  | .lowRegionWrite _ => none

/-- Why a step gives no meaning. No arm of exec is refused, so no step of this model answers it. -/
inductive Refusal where
  /-- An instruction with no meaning yet, by its mnemonic. Raised by exec's refused arms only. Safe. -/
  | notModelled (mnemonic : String)
  deriving DecidableEq, Repr

/-- `HaltReason` (R32): a fatal error with its information and the `pc` of the cycle that raised it (R114: none for
the boot kinds), or `Quit`. -/
inductive HaltReason where
  | error (e : Fault) (pc : Option Word)
  | quit
  deriving DecidableEq, Repr

/-- `mode` (R15, R32). -/
inductive Mode where
  | running (m : RunMode)
  | halted (r : HaltReason)
  deriving DecidableEq, Repr

/-- The atomic events of R131. The byte `r` of `Cycle(r)` and `Step(r)` is the free value of R85 (log 3). -/
inductive Event where
  /-- One instruction cycle by the CORE's own cycle driver (R122). -/
  | cycle
  /-- The host's step signal (R123). -/
  | step
  /-- The cadence clock (R127). -/
  | tick
  /-- `Key(K, b)`: key `K` pressed or released (R130). -/
  | key (k : KeyIndex) (pressed : Bool)
  /-- The host's mode-toggle signal (R124). -/
  | toggleMode
  /-- The host's quit signal (R125). -/
  | quit
  deriving DecidableEq, Repr

/-- What the CORE puts out (R138). -/
inductive Output where
  /-- The framebuffer snapshot of a tick (R128). -/
  | frame (d : Display)
  /-- The boolean `ST > 0` of a tick (R129). -/
  | tone (on : Bool)
  /-- The halt reason, when `mode` becomes `Halted`. -/
  | halted (r : HaltReason)
  deriving DecidableEq, Repr

/-- Memory as the list of bytes that differ from the boot content, by rising address (R36, R37; log 8, log 9).
Its canonical form is `Memory.wf` of Machine/Memory.lean. -/
abbrev Memory := List Host.Cell

/-- The architectural state of R15 (`mem` to `mode`), then the model's own fields (logs 3, 4, 5). -/
structure State where
  /-- The 4096 bytes of memory (R36). -/
  mem : Memory
  /-- The data registers `V[0]`..`V[15]` (R16). -/
  v : Vector (BitVec (delta% Config.vWidth)) (delta% Config.numV)
  /-- The index register (R19). -/
  i : BitVec (delta% Config.iWidth)
  /-- The program counter (R20). -/
  pc : BitVec (delta% Config.pcWidth)
  /-- The call stack slots `stack[0..15]` (R23). -/
  stack : Vector (BitVec (delta% Config.slotWidth)) (delta% Config.stackDepth)
  /-- `SP`, the number of occupied slots, 0..16 (R23). -/
  sp : Fin (delta% Config.spValues)
  /-- The delay timer (R27). -/
  dt : BitVec (delta% Config.timerWidth)
  /-- The sound timer (R27). -/
  st : BitVec (delta% Config.timerWidth)
  /-- The display buffer, `disp[column][row]` (R31). -/
  disp : Display
  /-- The key state, true = pressed (R29). -/
  keys : Vector Bool (delta% Config.numKeys)
  /-- Run mode and lifecycle (R32). -/
  mode : Mode
  /-- Model's own: how many free values have been taken (DESIGN CHOICE, log 3). -/
  draws : Nat
  /-- Model's own: the events still to be taken, oldest first (DESIGN CHOICE, log 4). -/
  events : List Event
  /-- Model's own: the signals put out so far, oldest first (DESIGN CHOICE, log 5). -/
  outbox : List Output
  deriving DecidableEq, Repr

/-- The state after reset (R140, R143): what boot leaves before a program image is copied in. The program comes from
outside the machine (log 6); the zeros are the spec's decisions D4, D5 (logs 7, 8: unsafe), the run mode is
`INITIAL_MODE` (log 6). -/
def State.reset : State where
  mem := []
  v := Vector.replicate (delta% Config.numV) Config.resetV
  i := Config.resetI
  pc := BitVec.ofNat (delta% Config.pcWidth) Config.progBase
  stack := Vector.replicate (delta% Config.stackDepth) Config.resetStack
  sp := Config.resetSP
  dt := Config.resetDT
  st := Config.resetST
  disp := Vector.replicate (delta% Config.dispW) (Vector.replicate (delta% Config.dispH) false)
  keys := Vector.replicate (delta% Config.numKeys) false
  mode := .running Config.initialMode
  draws := 0
  events := []
  outbox := []

end Sys2Proof.Machine
end

