-- ==== Sys2Proof/Machine/Memory.lean ====
section
/-! DEFINITION. The 4096-byte memory (20_memory.md): what an unlisted address reads as, the canonical form, reading and
writing one byte. -/

namespace Sys2Proof.Machine

/-- The boot content of an address that no program image covers (R37, R38): a glyph byte in
`[FONT_BASE, FONT_BASE + 80)`, `MEM_FILL` elsewhere (log 8, log 9: unsafe). What an unlisted address reads as. -/
def bootByte (addr : Nat) : Byte :=
  if Config.fontBase ≤ addr then Config.fontData.getD (addr - Config.fontBase) Config.memFill else Config.memFill

/-- The canonical form: addresses strictly rising and inside the memory, no byte equal to what its address reads as
when unlisted. -/
abbrev Memory.wf (m : Memory) : Prop :=
  m.Pairwise (fun p q => p.1 < q.1) ∧ ∀ c ∈ m, c.1 < Config.memSize ∧ c.2 ≠ bootByte c.1

/-- `mem[addr]`. -/
def Memory.read : Memory → Nat → Byte
  | [], addr => bootByte addr
  | (k, b) :: rest, addr => if k = addr then b else Memory.read rest addr

/-- A cell in front of a memory, left out where it says nothing. -/
def Memory.consCell (addr : Nat) (b : Byte) (m : Memory) : Memory :=
  if b = bootByte addr then m else (addr, b) :: m

/-- `mem[addr] <- b`, keeping the canonical form. -/
def Memory.write : Memory → Nat → Byte → Memory
  | [], addr, b => Memory.consCell addr b []
  | (k, c) :: rest, addr, b =>
    if addr < k then Memory.consCell addr b ((k, c) :: rest)
    else if addr = k then Memory.consCell addr b rest
    else (k, c) :: Memory.write rest addr b

/-- Any cells as a memory: those at addresses that exist, later ones winning. -/
def Memory.ofCells (cells : List Host.Cell) : Memory :=
  (cells.filter fun c => c.1 < Config.memSize).foldl (fun m c => Memory.write m c.1 c.2) []

/-- Bytes written from an address upwards, with no bounds check (boot's copying of the program image, R140). -/
def Memory.writeList : Memory → Nat → List Byte → Memory
  | m, _, [] => m
  | m, addr, b :: bs => Memory.writeList (Memory.write m addr b) (addr + 1) bs

end Sys2Proof.Machine
end

