-- ==== Sys2Proof/Machine/Ops.lean ====
section
/-! DEFINITION. The named operations over registers, memory and stack; the cycle's outcomes and its end (R63, R66 to
R68, R72); and taking a fatal error, once for every instruction (R68, R114, R115). -/

namespace Sys2Proof.Machine

/-! ### Registers (R11, R16): every read and write goes through these -/

/-- `V[x]`. -/
def State.getV (s : State) (x : RegIndex) : Byte := s.v[x]

/-- `V[x] <- b`. -/
def State.setV (s : State) (x : RegIndex) (b : Byte) : State := { s with v := s.v.set x b }

/-- `VF <- b`, the flag (R17). -/
def State.setVF (s : State) (b : Byte) : State := s.setV Config.flagReg b

/-- `I <- w`. -/
def State.setI (s : State) (w : Word) : State := { s with i := w }

/-- `pc <- w`. -/
def State.setPc (s : State) (w : Word) : State := { s with pc := w }

/-- `DT <- b`. -/
def State.setDT (s : State) (b : Byte) : State := { s with dt := b }

/-- `ST <- b`. -/
def State.setST (s : State) (b : Byte) : State := { s with st := b }

/-- The display replaced as a whole. -/
def State.setDisp (s : State) (d : Display) : State := { s with disp := d }

/-- The memory replaced as a whole. -/
def State.setMem (s : State) (m : Memory) : State := { s with mem := m }

/-- `pc +_16 w` (R22). -/
def State.pcPlus (s : State) (w : Nat) : Word := s.pc + BitVec.ofNat (delta% Config.pcWidth) w

/-! ### Taking a fatal error, and quitting -/

/-- `mode <- Halted(r)`, with the output signal `halted` (R138). -/
def State.halt (s : State) (r : HaltReason) : State :=
  { s with mode := .halted r, outbox := s.outbox ++ [.halted r] }

/-- Every component other than `mode` replaced by the free value `Config.afterError` (R68, D22, log 2). The model's
own fields stay: the events to come and the signals already put out are no part of the CORE's state. -/
def State.unspecified (s : State) : State :=
  let u := Config.afterError s.draws
  { s with
    mem := Memory.ofCells u.cells, v := u.v, i := u.i, pc := u.pc, stack := u.stack, sp := u.sp,
    dt := u.dt, st := u.st, disp := u.disp, keys := u.keys, draws := s.draws + 1 }

/-- Taking the fatal error `e` (R68, R115): `mode <- Halted(e)` with the `pc` of the cycle that raised it (none at
boot, R114); "rest of state unspecified" (R72). It saves no state and transfers control nowhere (R118), and nothing
returns from it (R119). -/
def State.takeError (s : State) (e : Fault) (pc : Option Word) : State :=
  s.unspecified.halt (.error e pc)

/-! ### The outcomes of a cycle (R63) -/

/-- R63's table. -/
inductive CycleOutcome where
  /-- The instruction completed and did not redirect `pc`. -/
  | next (s : State)
  /-- The instruction completed and wrote `pc` itself. -/
  | jumped (s : State)
  /-- Block-until-key-press with no key pressed. -/
  | blocked
  /-- A fatal error. -/
  | fault (e : Fault)

/-- The end of a cycle that began in `s` (R66, R67, R68, R72). -/
def endCycle (s : State) : CycleOutcome → Host.Outcome State Fault Refusal
  | .next t => .next (t.setPc (t.pcPlus Config.insnWidth))
  | .jumped t => .next t
  | .blocked => .next s
  | .fault e => .next (s.takeError e (some s.pc))

/-- Going on with a value, or raising its error: the pseudocode's "may raise". -/
def orRaise {α : Type} (r : Except Fault α) (k : α → CycleOutcome) : CycleOutcome :=
  match r with
  | .ok a => k a
  | .error e => .fault e

/-! ### Memory (R39 to R41): addresses are unbounded naturals, checked, never wrapped -/

/-- `MemRead(addr, 1)` (R39). -/
def memRead (s : State) (addr : Nat) : Except Fault Byte :=
  if Config.memSize ≤ addr then .error (.outOfRangeMemoryAccess addr) else .ok (s.mem.read addr)

/-- `MemWrite(addr, 1, b)` (R40), with the low region writable or not by `LOW_REGION_WRITABLE` (D7, log 12). -/
def memWrite (s : State) (addr : Nat) (b : Byte) : Except Fault State :=
  if Config.memSize ≤ addr then .error (.outOfRangeMemoryAccess addr)
  else if addr < Config.progBase && !Config.lowRegionWritable then .error (.lowRegionWrite addr)
  else .ok (s.setMem (s.mem.write addr b))

/-- `n` single-byte reads at ascending addresses (R44). -/
def readBytes (s : State) (addr : Nat) : Nat → Except Fault (List Byte)
  | 0 => .ok []
  | n + 1 =>
    match memRead s addr with
    | .error e => .error e
    | .ok b =>
      match readBytes s (addr + 1) n with
      | .error e => .error e
      | .ok bs => .ok (b :: bs)

/-- Single-byte writes at ascending addresses (R44). -/
def writeBytes (s : State) (addr : Nat) : List Byte → Except Fault State
  | [] => .ok s
  | b :: bs =>
    match memWrite s addr b with
    | .error e => .error e
    | .ok t => writeBytes t (addr + 1) bs

/-! ### Call stack (R23 to R26) -/

/-- `push_return(a)` (R24). -/
def pushReturn (s : State) (a : Word) : Except Fault State :=
  if h : s.sp.val < Config.stackDepth then
    .ok { s with stack := s.stack.set s.sp.val a h, sp := ⟨s.sp.val + 1, Nat.succ_lt_succ h⟩ }
  else .error (.stackOverflow s.pc)

/-- `pop_return()` (R25): the value and the state with `SP` lowered; the vacated slot keeps its value. -/
def popReturn (s : State) : Except Fault (Word × State) :=
  if h : 0 < s.sp.val then
    .ok (s.stack[s.sp.val - 1]'(by omega), { s with sp := ⟨s.sp.val - 1, by omega⟩ })
  else .error (.stackUnderflow s.pc)

/-! ### Keys (R29, R30) -/

/-- `is_pressed(k)`. -/
def isPressed (s : State) (k : KeyIndex) : Bool := s.keys[k]

/-- `first_pressed()`: the lowest pressed key, or none (DESIGN CHOICE, D19, log 23: unsafe). -/
def firstPressed (s : State) : Option KeyIndex :=
  (List.finRange (delta% Config.numKeys)).find? fun k => isPressed s k

end Sys2Proof.Machine
end

