-- ==== Sys2Proof/Machine/Flags.lean ====
section
/-! DEFINITION. Every value the machine writes to VF as a flag (R12, R17, R80 to R84, R104). -/

namespace Sys2Proof.Machine

/-- A flag as the byte written to VF: 1 or 0. -/
def flagByte (b : Bool) : Byte := if b then 1#8 else 0#8

/-- `zext_9(vx) + zext_9(vy)` (R80), 0..510. -/
def sum9 (vx vy : Byte) : BitVec 9 := vx.zeroExtend 9 + vy.zeroExtend 9

/-- Carry out of bit 7 (R80): 1 when the 9-bit sum is above 255. The 0 without carry is D33 (log 33: unsafe). -/
def carryFlag (vx vy : Byte) : Byte := flagByte (255#9 < sum9 vx vy)

/-- No borrow of `a - b` (R81, R83): 0 on borrow, else 1. The 1, equality included, is D33 (log 33: unsafe). -/
def notBorrowFlag (a b : Byte) : Byte := flagByte (b ≤ a)

/-- The bit SHR shifts out, `src[0]` (R82). -/
def shrFlag (src : Byte) : Byte := flagByte (src.getLsbD 0)

/-- The bit SHL shifts out, `src[7]` (R84). -/
def shlFlag (src : Byte) : Byte := flagByte (src.getLsbD 7)

/-- The collision of a draw (R104). -/
def collisionFlag (c : Bool) : Byte := flagByte c

end Sys2Proof.Machine
end

