-- ==== Sys2Proof/Machine/Operands.lean ====
section
/-! DEFINITION. Every operand form beyond a plain register or immediate: the shift source, the indexed-jump target, the
key index, the target check, the glyph address, the sprite's start cell, the BCD digits, the first registers. -/

namespace Sys2Proof.Machine

/-- `src` of SHR and SHL (R82, R84): `V[X]` or `V[Y]` by `SHIFT_SOURCE` (D10, log 15). -/
def shiftOperand (s : State) (x y : RegIndex) : Byte :=
  match Config.shiftSource with
  | .vx => s.getV x
  | .vy => s.getV y

/-- The register BNNN adds (R98): `V[0]`, or `V[op[11:8]]` for the BXNN variant, by `JUMP_OFFSET_REG` (D12, log 17). -/
def jumpOffset (s : State) (nnn : Addr12) : Byte :=
  match Config.jumpOffsetReg with
  | .v0 => s.getV 0
  | .vx => s.getV (nnn.extractLsb' 8 4).toFin

/-- The target of BNNN, unbounded (R98); at most 0x10FE. -/
def jumpTarget (s : State) (nnn : Addr12) : Nat := nnn.toNat + (jumpOffset s nnn).toNat

/-- `check_target(t)` (R69, D8, log 13). -/
def checkTarget (t : Nat) : Except Fault Unit :=
  match Config.oddTargetPolicy with
  | .allow => .ok ()
  | .fault => if t % 2 = 1 then .error (.misalignedProgramCounter t) else .ok ()

/-- `key_index(v)` (R93, D18, log 22). -/
def keyIndex (v : Byte) : Except Fault KeyIndex :=
  if (delta% Config.numKeys) ≤ v.toNat then
    match Config.keyIndexPolicy with
    | .fault => .error (.invalidKeyIndex v)
    | .mask => .ok (Fin.ofNat (delta% Config.numKeys) v.toNat)
  else .ok (Fin.ofNat (delta% Config.numKeys) v.toNat)

/-- `FONT_BASE + 5 * (v AND 0x0F)` (R110, D17, log 21). -/
def glyphAddress (v : Byte) : Word :=
  BitVec.ofNat (delta% Config.iWidth) (Config.fontBase + Config.glyphBytes * (v &&& 0x0F#8).toNat)

/-- `x0 <- V[X] mod 64` (R104). -/
def startColumn (v : Byte) : Column := Fin.ofNat (delta% Config.dispW) v.toNat

/-- `y0 <- V[Y] mod 32` (R104). -/
def startRow (v : Byte) : Row := Fin.ofNat (delta% Config.dispH) v.toNat

/-- Hundreds, tens, ones (R111; PRESUMED by the spec, G14, log 41). -/
def bcdDigits (v : Byte) : List Byte := [v / 100#8, (v / 10#8) % 10#8, v % 10#8]

/-- `V[0]`..`V[X]`, the registers FX55 stores (R112). -/
def firstRegisters (s : State) (x : RegIndex) : List Byte := s.v.toList.take (x.val + 1)

/-- The registers after bytes are loaded into `V[0]`, `V[1]`, … (R113): those past the last byte are unchanged. -/
def loadRegisters (v : Vector Byte (delta% Config.numV)) (bytes : List Byte) : Vector Byte (delta% Config.numV) :=
  Vector.ofFn fun k => bytes.getD k.val v[k]

/-- `I` after a dump or load of `X + 1` bytes (R112, R113): unchanged, or advanced by `MEM_INCREMENTS_I` (D13, log 18). -/
def indexAfter (s : State) (x : RegIndex) : Word :=
  if Config.memIncrementsI then s.i + BitVec.ofNat (delta% Config.iWidth) (x.val + 1) else s.i

end Sys2Proof.Machine
end

