-- ==== Sys2Proof/Machine/Arith.lean ====
section
/-! DEFINITION. Register load, arithmetic, logic, shift and random (41_arithmetic.md, R74 to R86). Operands are read
before any write; a flag is the last write, so it wins when `X = 15` (R12). -/

namespace Sys2Proof.Machine

/-- LD Vx, byte (R74). -/
def execLdByte (x : RegIndex) (nn : Byte) (s : State) : Host.Outcome State Fault Refusal :=
  endCycle s (.next (s.setV x nn))

/-- ADD Vx, byte (R75): wraps, and never writes VF as a flag (D34, log 34: unsafe). -/
def execAddByte (x : RegIndex) (nn : Byte) (s : State) : Host.Outcome State Fault Refusal :=
  endCycle s (.next (s.setV x (s.getV x + nn)))

/-- LD Vx, Vy (R76). -/
def execLdReg (x y : RegIndex) (s : State) : Host.Outcome State Fault Refusal :=
  endCycle s (.next (s.setV x (s.getV y)))

/-- `if LOGIC_CLEARS_VF then VF <- 0` (R77 to R79, D11, log 16). -/
def afterLogic (s : State) : State := if Config.logicClearsVF then s.setVF 0#8 else s

/-- OR Vx, Vy (R77). -/
def execOrReg (x y : RegIndex) (s : State) : Host.Outcome State Fault Refusal :=
  endCycle s (.next (afterLogic (s.setV x (s.getV x ||| s.getV y))))

/-- AND Vx, Vy (R78). -/
def execAndReg (x y : RegIndex) (s : State) : Host.Outcome State Fault Refusal :=
  endCycle s (.next (afterLogic (s.setV x (s.getV x &&& s.getV y))))

/-- XOR Vx, Vy (R79). -/
def execXorReg (x y : RegIndex) (s : State) : Host.Outcome State Fault Refusal :=
  endCycle s (.next (afterLogic (s.setV x (s.getV x ^^^ s.getV y))))

/-- ADD Vx, Vy (R80): the low 8 bits of the 9-bit sum, then the carry. -/
def execAddReg (x y : RegIndex) (s : State) : Host.Outcome State Fault Refusal :=
  endCycle s (.next ((s.setV x ((sum9 (s.getV x) (s.getV y)).extractLsb' 0 8)).setVF (carryFlag (s.getV x) (s.getV y))))

/-- SUB Vx, Vy (R81): `vx -_8 vy`, then not-borrow. -/
def execSubReg (x y : RegIndex) (s : State) : Host.Outcome State Fault Refusal :=
  endCycle s (.next ((s.setV x (s.getV x - s.getV y)).setVF (notBorrowFlag (s.getV x) (s.getV y))))

/-- SHR Vx (R82): logical shift right by 1, then the bit shifted out. -/
def execShr (x y : RegIndex) (s : State) : Host.Outcome State Fault Refusal :=
  endCycle s (.next ((s.setV x (shiftOperand s x y >>> 1)).setVF (shrFlag (shiftOperand s x y))))

/-- SUBN Vx, Vy (R83): `vy -_8 vx`, then not-borrow. -/
def execSubn (x y : RegIndex) (s : State) : Host.Outcome State Fault Refusal :=
  endCycle s (.next ((s.setV x (s.getV y - s.getV x)).setVF (notBorrowFlag (s.getV y) (s.getV x))))

/-- SHL Vx (R84): shift left by 1, then the bit shifted out. -/
def execShl (x y : RegIndex) (s : State) : Host.Outcome State Fault Refusal :=
  endCycle s (.next ((s.setV x (shiftOperand s x y <<< 1)).setVF (shlFlag (shiftOperand s x y))))

/-- RND Vx, byte (R85): a fresh free byte, masked (D15, log 3). -/
def execRnd (x : RegIndex) (nn : Byte) (s : State) : Host.Outcome State Fault Refusal :=
  endCycle s (.next { s.setV x (Config.randomByte s.draws &&& nn) with draws := s.draws + 1 })

end Sys2Proof.Machine
end

