-- ==== Sys2Proof/Machine/Control.lean ====
section
/-! DEFINITION. Jumps, calls, returns and SYS (43_control_transfer.md, R94 to R98). -/

namespace Sys2Proof.Machine

/-- SYS addr (R94): `UnknownOpcode(op)` under the decided policy (D9, log 14). Its effect IS the error: `mode` becomes
`Halted(UnknownOpcode(op))`. -/
def execSys (nnn : Addr12) (s : State) : Host.Outcome State Fault Refusal :=
  endCycle s
    (match Config.sysPolicy with
    | .fault => .fault (.unknownOpcode (nnn.zeroExtend 16))
    | .nop => .next s)

/-- RET (R95): `pc` is the popped value, with no further advance (D20, log 24). -/
def execRet (s : State) : Host.Outcome State Fault Refusal :=
  endCycle s (orRaise (popReturn s) fun p => .jumped (p.2.setPc p.1))

/-- JP addr (R96). -/
def execJp (nnn : Addr12) (s : State) : Host.Outcome State Fault Refusal :=
  endCycle s (orRaise (checkTarget nnn.toNat) fun _ => .jumped (s.setPc (nnn.zeroExtend (delta% Config.pcWidth))))

/-- CALL addr (R97): the target is checked before the stack (R117); the pushed address is `pc +_16 2` (D20, log 24). -/
def execCall (nnn : Addr12) (s : State) : Host.Outcome State Fault Refusal :=
  endCycle s (orRaise (checkTarget nnn.toNat) fun _ =>
    orRaise (pushReturn s (s.pcPlus Config.insnWidth)) fun t => .jumped (t.setPc (nnn.zeroExtend (delta% Config.pcWidth))))

/-- JP V0, addr (R98): no wrap at 12 bits. -/
def execJpV0 (nnn : Addr12) (s : State) : Host.Outcome State Fault Refusal :=
  endCycle s (orRaise (checkTarget (jumpTarget s nnn)) fun _ =>
    .jumped (s.setPc (BitVec.ofNat (delta% Config.pcWidth) (jumpTarget s nnn))))

end Sys2Proof.Machine
end

