-- ==== Sys2Proof/Machine/Blit.lean ====
section
/-! DEFINITION. The blit engine (R105): a sprite's pixels in visiting order, and the XOR of each with its cell. -/

namespace Sys2Proof.Machine

/-- `disp[c][r]`. -/
def Display.cell (d : Display) (c : Column) (r : Row) : Bool := d[c][r]

/-- `disp[c][r] <- not disp[c][r]`. -/
def Display.toggle (d : Display) (c : Column) (r : Row) : Display := d.set c (d[c].set r (!d[c][r]))

/-- The clear display. -/
def Display.clear : Display := Vector.replicate (delta% Config.dispW) (Vector.replicate (delta% Config.dispH) false)

/-- The cells that row byte `row` covers with a 1 bit when it starts at column `x0`, left to right: bit 7 is the
leftmost pixel (G7) and the column of bit `7 - j` is `(x0 + j) mod 64` (D16, log 20: unsafe). -/
def rowPixels (x0 : Column) (r : Row) (row : Byte) : List (Column × Row) :=
  ((List.range 8).filter fun j => row.getLsbD (7 - j)).map fun j => (x0 + Fin.ofNat (delta% Config.dispW) j, r)

/-- The cells a sprite covers with a 1 bit, in visiting order: row byte `i` is drawn in row `(y0 + i) mod 32`. -/
def spritePixels (x0 : Column) : Row → List Byte → List (Column × Row)
  | _, [] => []
  | y, row :: rows => rowPixels x0 y row ++ spritePixels x0 (y + 1) rows

/-- One pixel: a set cell becomes unset (a collision), an unset cell becomes set. -/
def blitPixel (acc : Display × Bool) (p : Column × Row) : Display × Bool :=
  (Display.toggle acc.1 p.1 p.2, acc.2 || Display.cell acc.1 p.1 p.2)

/-- `draw_sprite(x0, y0, rows)` (R105): the new display, and whether any cell went from set to unset. -/
def drawSprite (d : Display) (x0 : Column) (y0 : Row) (rows : List Byte) : Display × Bool :=
  (spritePixels x0 y0 rows).foldl blitPixel (d, false)

end Sys2Proof.Machine
end

