-- ==== Sys2Proof/Machine/Draw.lean ====
section
/-! DEFINITION. Display clear and sprite draw (45_display.md, R103, R104). -/

namespace Sys2Proof.Machine

/-- CLS (R103). -/
def execCls (s : State) : Host.Outcome State Fault Refusal :=
  endCycle s (.next (s.setDisp Display.clear))

/-- DRW Vx, Vy, nibble (R104): all `N` bytes are read before any cell changes (D16, log 20), then the blit, then VF.
The draw completes in its cycle (D29, log 29). -/
def execDrw (x y : RegIndex) (n : Nibble) (s : State) : Host.Outcome State Fault Refusal :=
  endCycle s (orRaise (readBytes s s.i.toNat n.toNat) fun rows =>
    let d := drawSprite s.disp (startColumn (s.getV x)) (startRow (s.getV y)) rows
    .next ((s.setDisp d.1).setVF (collisionFlag d.2)))

end Sys2Proof.Machine
end

