-- ==== Sys2Proof/Machine/IndexMem.lean ====
section
/-! DEFINITION. Index register and memory transfer (46_index_and_memory.md, R108 to R113). -/

namespace Sys2Proof.Machine

/-- LD I, addr (R108). -/
def execLdI (nnn : Addr12) (s : State) : Host.Outcome State Fault Refusal :=
  endCycle s (.next (s.setI (nnn.zeroExtend (delta% Config.iWidth))))

/-- ADD I, Vx (R109): wraps at 2^16, VF not written (D14, log 19). -/
def execAddI (x : RegIndex) (s : State) : Host.Outcome State Fault Refusal :=
  endCycle s (.next (s.setI (s.i + (s.getV x).zeroExtend (delta% Config.iWidth))))

/-- LD F, Vx (R110). -/
def execLdGlyph (x : RegIndex) (s : State) : Host.Outcome State Fault Refusal :=
  endCycle s (.next (s.setI (glyphAddress (s.getV x))))

/-- LD B, Vx (R111): three bytes stored at `I`, `I + 1`, `I + 2`. -/
def execLdBcd (x : RegIndex) (s : State) : Host.Outcome State Fault Refusal :=
  endCycle s (orRaise (writeBytes s s.i.toNat (bcdDigits (s.getV x))) fun t => .next t)

/-- LD [I], Vx (R112): `V[0]`..`V[X]` stored at `I`, `I + 1`, … -/
def execDump (x : RegIndex) (s : State) : Host.Outcome State Fault Refusal :=
  endCycle s (orRaise (writeBytes s s.i.toNat (firstRegisters s x)) fun t => .next (t.setI (indexAfter s x)))

/-- LD Vx, [I] (R113): `V[0]`..`V[X]` loaded from `I`, `I + 1`, … -/
def execLoad (x : RegIndex) (s : State) : Host.Outcome State Fault Refusal :=
  endCycle s (orRaise (readBytes s s.i.toNat (x.val + 1)) fun bytes =>
    .next { s.setI (indexAfter s x) with v := loadRegisters s.v bytes })

end Sys2Proof.Machine
end

