-- ==== Sys2Proof/Machine/KeysTimers.lean ====
section
/-! DEFINITION. Key wait and timer access (44_keys_and_timers.md, R99 to R102). -/

namespace Sys2Proof.Machine

/-- LD Vx, K (R99): blocked while no key is pressed, with no write at all; else the lowest pressed key (D19, log 23). -/
def execLdKey (x : RegIndex) (s : State) : Host.Outcome State Fault Refusal :=
  endCycle s
    (match firstPressed s with
    | none => .blocked
    | some k => .next (s.setV x (BitVec.ofNat 8 k.val)))

/-- LD Vx, DT (R100). -/
def execLdFromDT (x : RegIndex) (s : State) : Host.Outcome State Fault Refusal :=
  endCycle s (.next (s.setV x s.dt))

/-- LD DT, Vx (R101). -/
def execLdToDT (x : RegIndex) (s : State) : Host.Outcome State Fault Refusal :=
  endCycle s (.next (s.setDT (s.getV x)))

/-- LD ST, Vx (R102). -/
def execLdToST (x : RegIndex) (s : State) : Host.Outcome State Fault Refusal :=
  endCycle s (.next (s.setST (s.getV x)))

end Sys2Proof.Machine
end

