-- ==== Sys2Proof/Machine/Skips.lean ====
section
/-! DEFINITION. Conditional skips (42_skips.md, R87 to R93). A skip that skips writes `pc <- pc +_16 4` itself; one that
does not lets the cycle add 2. No skip writes a register. -/

namespace Sys2Proof.Machine

/-- `if cond then { pc <- pc +_16 4; return Jumped }; return Next`. -/
def skipIf (cond : Bool) (s : State) : CycleOutcome :=
  if cond then .jumped (s.setPc (s.pcPlus (2 * Config.insnWidth))) else .next s

/-- SE Vx, byte (R87). -/
def execSeByte (x : RegIndex) (nn : Byte) (s : State) : Host.Outcome State Fault Refusal :=
  endCycle s (skipIf (s.getV x == nn) s)

/-- SNE Vx, byte (R88). -/
def execSneByte (x : RegIndex) (nn : Byte) (s : State) : Host.Outcome State Fault Refusal :=
  endCycle s (skipIf (s.getV x != nn) s)

/-- SE Vx, Vy (R89). -/
def execSeReg (x y : RegIndex) (s : State) : Host.Outcome State Fault Refusal :=
  endCycle s (skipIf (s.getV x == s.getV y) s)

/-- SNE Vx, Vy (R90). -/
def execSneReg (x y : RegIndex) (s : State) : Host.Outcome State Fault Refusal :=
  endCycle s (skipIf (s.getV x != s.getV y) s)

/-- SKP Vx (R91): the key is tested as a level. -/
def execSkp (x : RegIndex) (s : State) : Host.Outcome State Fault Refusal :=
  endCycle s (orRaise (keyIndex (s.getV x)) fun k => skipIf (isPressed s k) s)

/-- SKNP Vx (R92). -/
def execSknp (x : RegIndex) (s : State) : Host.Outcome State Fault Refusal :=
  endCycle s (orRaise (keyIndex (s.getV x)) fun k => skipIf (!isPressed s k) s)

end Sys2Proof.Machine
end

