-- ==== Sys2Proof/Machine/Cycle.lean ====
section
/-! DEFINITION. The instruction cycle: fetch, decode, execute (40_execution_cycle.md, R62 to R72). -/

namespace Sys2Proof.Machine

/-- Fetch (R64): the byte at `pc` is the high half; each byte may raise `OutOfRangeMemoryAccess`. -/
def fetch (s : State) : Except Fault Word :=
  match memRead s s.pc.toNat with
  | .error e => .error e
  | .ok hi =>
    match memRead s (s.pc.toNat + 1) with
    | .error e => .error e
    | .ok lo => .ok (wordOfBytes hi lo)

/-- `decode(op)`, with `UnknownOpcode(op)` raised for an opcode that is no form (R65). -/
def decodeOrRaise (op : Word) : Except Fault Instr :=
  match decodeWord op with
  | .ok i => .ok i
  | .error _ => .error (.unknownOpcode op)

/-- Fetch and decode: what a cycle that begins in `s` is to execute, or the error it raises (R117, steps 1 to 3). -/
def fetchDecode (s : State) : Except Fault Instr :=
  match fetch s with
  | .error e => .error e
  | .ok op => decodeOrRaise op

/-- `cycle(s, r)` (R72); the random byte `r` is the free value (log 3). -/
def cycle (s : State) : Host.Outcome State Fault Refusal :=
  match fetchDecode s with
  | .error e => endCycle s (.fault e)
  | .ok i => exec i s

end Sys2Proof.Machine
end

