-- ==== Sys2Proof/Machine/Events.lean ====
section
/-! DEFINITION. The events of R131 and what each does in each mode (R121 to R131), and boot (R140 to R142). -/

namespace Sys2Proof.Machine

/-- A timer counted down, floored at zero (R127). -/
def countDown (b : Byte) : Byte := if 0#8 < b then b - 1#8 else 0#8

/-- The tick (R127): the frame and the tone are put out, then both timers count down (D26, log 27). -/
def tick (s : State) : State :=
  { s with
    dt := countDown s.dt, st := countDown s.st,
    outbox := s.outbox ++ [.frame s.disp, .tone (0#8 < s.st)] }

/-- `set_pressed(K, b)` (R130). -/
def setKey (s : State) (k : KeyIndex) (pressed : Bool) : State := { s with keys := s.keys.set k pressed }

/-- The other run mode (R124). -/
def otherMode : RunMode → RunMode
  | .standard => .debug
  | .debug => .standard

/-- An event in `Running(m)` (R131). `Cycle` is enabled in Standard alone and `Step` runs a cycle in Debug alone; each
has no effect in the other run mode (D28, log 28). -/
def eventRunning (m : RunMode) (e : Event) (s : State) : Host.Outcome State Fault Refusal :=
  match e, m with
  | .cycle, .standard => cycle s
  | .cycle, .debug => .next s
  | .step, .debug => cycle s
  | .step, .standard => .next s
  | .tick, _ => .next (tick s)
  | .key k b, _ => .next (setKey s k b)
  | .toggleMode, _ => .next { s with mode := .running (otherMode m) }
  | .quit, _ => .next (s.halt .quit)

/-- An event in any mode: `Halted` is terminal, no event has an effect in it (R119, R126). -/
def takeEvent (e : Event) (s : State) : Host.Outcome State Fault Refusal :=
  match s.mode with
  | .running m => eventRunning m e s
  | .halted _ => .next s

/-- What happens when no event is waiting: in `Running(Standard)` the cycle driver runs a cycle (R122), in
`Running(Debug)` and in `Halted` nothing does (R123, R126). Log 4. -/
def ownEvent (s : State) : Host.Outcome State Fault Refusal :=
  match s.mode with
  | .running .standard => cycle s
  | .running .debug => .next s
  | .halted _ => .next s

/-- The next event of R131's order: the oldest waiting one, or the machine's own. -/
def nextEvent (s : State) : Host.Outcome State Fault Refusal :=
  match s.events with
  | [] => ownEvent s
  | e :: rest => takeEvent e { s with events := rest }

/-- `boot(image, m)` (R140): the checks of R142 and R141, then the reset state with the image at `PROG_BASE`. A failed
boot is a fatal error with no `pc` (R114, C3, log 26). -/
def boot (image : List Byte) (m : RunMode) : State :=
  if image.length = 0 then State.reset.takeError .emptyProgram none
  else if Config.maxProgLen < image.length then State.reset.takeError (.programTooLarge image.length) none
  else { State.reset with mem := Memory.writeList State.reset.mem Config.progBase image, mode := .running m }

/-- Where the next cycle fetches, moved to `PROG_BASE` if two bytes do not fit at `pc` (log 40). -/
def fetchPlace (s : State) : Word :=
  if s.pc.toNat + 1 < Config.memSize then s.pc else BitVec.ofNat (delta% Config.pcWidth) Config.progBase

/-- The state whose next step runs the opcode `op`: its bytes stand at the fetch place, no event waits, and the machine
is in `Running(Standard)` (log 40). -/
def placeWord (s : State) (op : Word) : State :=
  { s with
    mem := Memory.writeList s.mem (fetchPlace s).toNat [highByte op, lowByte op],
    pc := fetchPlace s, events := [], mode := .running .standard }

end Sys2Proof.Machine
end

