-- ==== Sys2Proof/Machine/Step.lean ====
section
/-! DEFINITION. One step: one atomic event (R131). -/

namespace Sys2Proof.Machine

/-- One atomic event of R131, taken in the order State holds (log 4). -/
def step (s : State) : Host.Outcome State Fault Refusal := nextEvent s

/-- `s` with the table's word `w` stored where step fetches its next instruction (log 40). -/
def State.withFetchWord (s : State) (nbits w : Nat) : State := placeWord s (tableWord nbits w)

end Sys2Proof.Machine
end

