-- ==== Sys2Proof/Safety.lean ====
section
/-! DEFINITION. What counts as a safe state, the invariant of every run, and the words claims are written in. -/

namespace Sys2Proof.Machine

/-- `mode` is `Running(_)`: cycles can run (R62). -/
def State.Running (s : State) : Prop := ∃ m, s.mode = .running m

/-- No fatal error has ended the run (R115): running, or halted by the quit signal. -/
def State.Safe (s : State) : Prop := ∀ e pc, s.mode ≠ .halted (.error e pc)

/-- The invariant: memory in its canonical form; while running, `pc` even and at most 0x10FE (R21, R22) and every
occupied stack slot an even address of at most 0x1000 (R95). Nothing is asked of a halted machine but its memory's
form, since its components are unspecified (R68). -/
structure State.Inv (s : State) : Prop where
  memWf : s.mem.wf
  pcEven : s.Running → s.pc.toNat % 2 = 0
  pcBound : s.Running → s.pc.toNat ≤ 0x10FE
  stackOk : s.Running → ∀ k : Fin 16, k.val < s.sp.val → s.stack[k].toNat % 2 = 0 ∧ s.stack[k].toNat ≤ 0x1000

/-- The cycle that began in `s` ended with the fatal error `e` (R68, R114, R115, R138): it answers a next state in which
`mode` is `Halted(e)` with the `pc` of the cycle, the `halted` signal has been put out, and the events to come are as
before. Nothing is said of any other component: each is unspecified. -/
def Raises (o : Host.Outcome State Fault Refusal) (s : State) (e : Fault) : Prop :=
  ∃ t, o = .next t ∧ t.mode = .halted (.error e (some s.pc)) ∧
    t.outbox = s.outbox ++ [.halted (.error e (some s.pc))] ∧ t.events = s.events

/-! ### Words the statements use -/

/-- The data registers an instruction may write when it completes: its destination, VF for the forms that write it as a
flag (R17), and `V[0]`..`V[X]` for FX65. -/
def mayWriteV : Instr → RegIndex → Bool
  | .ldByte x _, k | .addByte x _, k | .ldReg x _, k | .orReg x _, k | .andReg x _, k | .xorReg x _, k => k == x
  | .rnd x _, k | .ldFromDT x, k | .ldKey x, k => k == x
  | .addReg x _, k | .subReg x _, k | .shr x _, k | .subn x _, k | .shl x _, k => k == x || k == 15
  | .drw _ _ _, k => k == 15
  | .load x, k => decide (k ≤ x)
  | .cls, _ | .ret, _ | .sys _, _ | .jp _, _ | .call _, _ | .jpV0 _, _ => false
  | .seByte _ _, _ | .sneByte _ _, _ | .seReg _ _, _ | .sneReg _ _, _ | .skp _, _ | .sknp _, _ => false
  | .ldI _, _ | .ldToDT _, _ | .ldToST _, _ | .addI _, _ | .ldGlyph _, _ | .ldBcd _, _ | .dump _, _ => false

/-- Whether the sprite that DXYN draws in `s` has a 1 bit over the cell in column `c`, row `r` (R104, R105), in closed
form: the cell is `j` columns right of `V[X]` and `i` rows below `V[Y]`, both modulo the grid, and bit `7 - j` of the byte at
`I + i` is 1. -/
def spriteCovers (s : State) (x y : RegIndex) (n : Nibble) (c : Column) (r : Row) : Bool :=
  let j := (c.val + 64 - s.v[x].toNat % 64) % 64
  let i := (r.val + 32 - s.v[y].toNat % 32) % 32
  decide (j < 8) && decide (i < n.toNat) && (s.mem.read (s.i.toNat + i)).getLsbD (7 - j)

/-- Addresses pushed one after another (R24). -/
def pushAll (s : State) : List Word → Except Fault State
  | [] => .ok s
  | a :: rest =>
    match pushReturn s a with
    | .error e => .error e
    | .ok t => pushAll t rest

/-- `n` pops one after another (R25): the values in the order popped, and the state left. -/
def popMany (s : State) : Nat → Except Fault (List Word × State)
  | 0 => .ok ([], s)
  | n + 1 =>
    match popReturn s with
    | .error e => .error e
    | .ok (a, t) =>
      match popMany t n with
      | .error e => .error e
      | .ok (rest, u) => .ok (a :: rest, u)

end Sys2Proof.Machine
end

