-- ==== Sys2Proof/Certificates/Slice0/Obligations.lean ====
section
/-! DEFINITION. The statements about the machine, for the provers. Each docstring names the rule of spec/ it formalises;
where a clause rests on a decision the spec marks as its own (D<n>) or on the model's choice, it says so. -/

open Sys2Proof Sys2Proof.Machine

/-! ### Encoding (30_encoding.md) -/

/-- Words written out from the templates of R56 decode to the forms they stand for, and words of R58 to none (the bit patterns
are the spec's from general knowledge, G2, log 11). -/
def Obligations.SpecWordsDecodeToTheirForms : Prop :=
  decodeWord 0x00E0#16 = .ok .cls ∧ decodeWord 0x00EE#16 = .ok .ret ∧ decodeWord 0x00E1#16 = .ok (.sys 0x0E1#12) ∧
  decodeWord 0x2ABC#16 = .ok (.call 0xABC#12) ∧ decodeWord 0x3210#16 = .ok (.seByte 2 0x10#8) ∧
  decodeWord 0x5AB0#16 = .ok (.seReg 0xA 0xB) ∧ decodeWord 0x6A2F#16 = .ok (.ldByte 0xA 0x2F#8) ∧
  decodeWord 0x8AB6#16 = .ok (.shr 0xA 0xB) ∧ decodeWord 0x9AB0#16 = .ok (.sneReg 0xA 0xB) ∧
  decodeWord 0xD125#16 = .ok (.drw 1 2 5#4) ∧ decodeWord 0xEA9E#16 = .ok (.skp 0xA) ∧
  decodeWord 0xF30A#16 = .ok (.ldKey 3) ∧ decodeWord 0xFA65#16 = .ok (.load 0xA) ∧
  decodeWord 0x5AB1#16 = .error (.unknownOpcode 0x5AB1#16) ∧ decodeWord 0x800F#16 = .error (.unknownOpcode 0x800F#16) ∧
  decodeWord 0xF01F#16 = .error (.unknownOpcode 0xF01F#16)

/-- Decode and encode agree (R53 to R57): every well-formed instruction, with every operand at every value, is what its
opcode decodes to. -/
def Obligations.DecodeOfEncodeIsTheInstruction : Prop :=
  ∀ i : Instr, i.WellFormed → decodeWord (encode i) = .ok i

/-- R56: an opcode is the form of the first row with `op AND mask = match`, with the fields of that row's template (its
encoding gives the opcode back); an opcode that matches no row is Unknown (the patterns are G2, log 11). -/
def Obligations.DecodeFollowsTheOpcodeMap : Prop :=
  ∀ op : Word,
    match decodeWord op with
    | .ok i => rowOfWord op = some i.row ∧ encode i = op ∧ i.WellFormed
    | .error r => rowOfWord op = none ∧ r = .unknownOpcode op

/-- R58: the opcodes that decode to Unknown are exactly those of its table, by class nibble, low nibble and low byte (derived
by the spec from R56; the patterns are G2, log 11). -/
def Obligations.UnknownOpcodesAreExactlyTheTable : Prop :=
  ∀ op : Word, decodeWord op = .error (.unknownOpcode op) ↔
    (op.toNat / 4096 = 0x5 ∧ op.toNat % 16 ≠ 0) ∨
    (op.toNat / 4096 = 0x8 ∧ op.toNat % 16 ∈ [0x8, 0x9, 0xA, 0xB, 0xC, 0xD, 0xF]) ∨
    (op.toNat / 4096 = 0x9 ∧ op.toNat % 16 ≠ 0) ∨
    (op.toNat / 4096 = 0xE ∧ op.toNat % 256 ∉ [0x9E, 0xA1]) ∨
    (op.toNat / 4096 = 0xF ∧ op.toNat % 256 ∉ [0x07, 0x0A, 0x15, 0x18, 0x1E, 0x29, 0x33, 0x55, 0x65])

/-! ### Memory (20_memory.md) -/

/-- R39: `MemRead(addr, 1)` on an unbounded address. -/
def Obligations.MemReadIsBoundsChecked : Prop :=
  ∀ (s : State) (addr : Nat),
    memRead s addr = if 4096 ≤ addr then .error (.outOfRangeMemoryAccess addr) else .ok (s.mem.read addr)

/-- R40 and the source's property it quotes: at every address below 4096 a write is read back, no other address and no
other component changes, and the canonical form is kept; at 4096 and above it raises. That the low region is among them
is the spec's decision D7. -/
def Obligations.WriteThenReadReturnsTheByte : Prop :=
  ∀ (s : State) (a : Nat) (b : Byte), s.mem.wf →
    (a < 4096 → ∃ m, memWrite s a b = .ok { s with mem := m } ∧ m.wf ∧
      ∀ a', m.read a' = if a' = a then b else s.mem.read a') ∧
    (4096 ≤ a → memWrite s a b = .error (.outOfRangeMemoryAccess a))

/-- Two memories in canonical form that read the same everywhere are the same data (the model's representation, log 8). -/
def Obligations.CanonicalMemoriesWithEqualReadsAreEqual : Prop :=
  ∀ m m' : Memory, m.wf → m'.wf → (∀ a, a < 4096 → m.read a = m'.read a) → m = m'

/-! ### Call stack (10_state.md) -/

/-- R24: a push stores into slot `SP` and raises `SP`, or overflows with the `pc` when all 16 slots are occupied. -/
def Obligations.PushReturnStoresOrOverflows : Prop :=
  ∀ (s : State) (a : Word),
    (∀ h : s.sp.val < 16,
      pushReturn s a = .ok { s with stack := s.stack.set s.sp.val a h, sp := ⟨s.sp.val + 1, by omega⟩ }) ∧
    (s.sp.val = 16 → pushReturn s a = .error (.stackOverflow s.pc))

/-- R26: addresses pushed up to the capacity are popped in reverse order, and the stack is then as full as before with
its occupied slots unchanged. -/
def Obligations.PushesThenPopsAreLifo : Prop :=
  ∀ (s : State) (as : List Word), s.sp.val + as.length ≤ 16 →
    ∃ t u, pushAll s as = .ok t ∧ t.sp.val = s.sp.val + as.length ∧ popMany t as.length = .ok (as.reverse, u) ∧
      u.sp = s.sp ∧ ∀ k : Fin 16, k.val < s.sp.val → u.stack[k] = s.stack[k]

/-! ### The cycle (40_execution_cycle.md) -/

/-- R62 to R65, R122, R123: when the two bytes at `pc`, the first as bits 15..8 (D2, log 10), decode to `i`, the step is `exec i` of
the state: with no event waiting (the model's choice of order, log 4) or a `Cycle` event in Standard, with a `Step` event in Debug (the event taken). -/
def Obligations.StepRunsTheDecodedInstruction : Prop :=
  ∀ (s : State) (i : Instr), s.pc.toNat + 1 < 4096 →
    decodeWord (BitVec.ofNat 16 (256 * (s.mem.read s.pc.toNat).toNat + (s.mem.read (s.pc.toNat + 1)).toNat)) = .ok i →
    (s.mode = .running .standard → s.events = [] → step s = exec i s) ∧
    (∀ rest, s.mode = .running .standard → s.events = .cycle :: rest → step s = exec i { s with events := rest }) ∧
    (∀ rest, s.mode = .running .debug → s.events = .step :: rest → step s = exec i { s with events := rest })

/-- An instruction stored at `pc` is the one executed: for every well-formed instruction and every state whose memory is in
canonical form, the next step with its opcode placed is `exec` of it (R42, R50, R64; the placing is the model's, log 40). -/
def Obligations.PlacedInstructionIsExecuted : Prop :=
  ∀ (s : State) (i : Instr), s.mem.wf → i.WellFormed →
    step (s.withFetchWord 16 (encode i).toNat) = exec i (s.withFetchWord 16 (encode i).toNat)

/-- R64, R65, R117 (1) to (3) (the order is D30): the error of a cycle that cannot execute: the first byte's address, then the second's, then
the unknown opcode. -/
def Obligations.FetchAndDecodeErrorsInOrder : Prop :=
  ∀ s : State,
    (4096 ≤ s.pc.toNat → Raises (cycle s) s (.outOfRangeMemoryAccess s.pc.toNat)) ∧
    (s.pc.toNat = 4095 → Raises (cycle s) s (.outOfRangeMemoryAccess 4096)) ∧
    (s.pc.toNat + 1 < 4096 → ∀ op,
      op = BitVec.ofNat 16 (256 * (s.mem.read s.pc.toNat).toNat + (s.mem.read (s.pc.toNat + 1)).toNat) →
      decodeWord op = .error (.unknownOpcode op) → Raises (cycle s) s (.unknownOpcode op))

/-- R63, R131: every step answers a next state. No state stops the model: that an error is a halted next state, never the
outcome fault or refused, is the model's reading (log 1, DEDUCED), and that a step with no event waiting in Debug or Halted
answers the same state is its choice (log 4, DESIGN CHOICE). -/
def Obligations.EveryStepAnswersANextState : Prop :=
  ∀ s : State, ∃ t, step s = .next t

/-! ### Register load, arithmetic, logic, shift, random (41_arithmetic.md). The equations name every component that changes;
every other one, memory and the other registers among them, is that of `s`. -/

/-- R74, R76, LD Vx, byte and LD Vx, Vy (general knowledge of the spec, G13). -/
def Obligations.LdFormsLoadTheOperand : Prop :=
  ∀ (s : State) (x y : RegIndex) (nn : Byte),
    exec (.ldByte x nn) s = .next { s with v := s.v.set x nn, pc := s.pc + 2#16 } ∧
    exec (.ldReg x y) s = .next { s with v := s.v.set x s.v[y], pc := s.pc + 2#16 }

/-- R75, ADD Vx, byte: the sum modulo 256; VF is not written as a flag (D34). -/
def Obligations.AddByteWrapsAndKeepsTheFlag : Prop :=
  ∀ (s : State) (x : RegIndex) (nn : Byte),
    exec (.addByte x nn) s =
      .next { s with v := s.v.set x (BitVec.ofNat 8 ((s.v[x].toNat + nn.toNat) % 256)), pc := s.pc + 2#16 }

/-- R77 to R79, OR, AND, XOR: bitwise (G13), and VF is not written as a flag (`LOGIC_CLEARS_VF` = false, D11). -/
def Obligations.LogicFormsAreBitwise : Prop :=
  ∀ (s : State) (x y : RegIndex),
    exec (.orReg x y) s = .next { s with v := s.v.set x (s.v[x] ||| s.v[y]), pc := s.pc + 2#16 } ∧
    exec (.andReg x y) s = .next { s with v := s.v.set x (s.v[x] &&& s.v[y]), pc := s.pc + 2#16 } ∧
    exec (.xorReg x y) s = .next { s with v := s.v.set x (s.v[x] ^^^ s.v[y]), pc := s.pc + 2#16 }

/-- R80, ADD Vx, Vy: the sum modulo 256 first, then VF = 1 when the sum exceeds 255, else 0 (the 0 is D33). Written last, VF
wins when `X = 15` (R12). -/
def Obligations.AddRegSetsCarryLast : Prop :=
  ∀ (s : State) (x y : RegIndex),
    exec (.addReg x y) s =
      .next { s with
        v := (s.v.set x (BitVec.ofNat 8 ((s.v[x].toNat + s.v[y].toNat) % 256))).set 15
          (if 255 < s.v[x].toNat + s.v[y].toNat then 1#8 else 0#8)
        pc := s.pc + 2#16 }

/-- R81, R83, SUB and SUBN: the difference modulo 256 first, then VF = 0 on borrow, else 1 (the 1, equality included, is
D33). -/
def Obligations.SubFormsSetNotBorrowLast : Prop :=
  ∀ (s : State) (x y : RegIndex),
    exec (.subReg x y) s =
      .next { s with
        v := (s.v.set x (BitVec.ofNat 8 ((256 + s.v[x].toNat - s.v[y].toNat) % 256))).set 15
          (if s.v[x].toNat < s.v[y].toNat then 0#8 else 1#8)
        pc := s.pc + 2#16 } ∧
    exec (.subn x y) s =
      .next { s with
        v := (s.v.set x (BitVec.ofNat 8 ((256 + s.v[y].toNat - s.v[x].toNat) % 256))).set 15
          (if s.v[y].toNat < s.v[x].toNat then 0#8 else 1#8)
        pc := s.pc + 2#16 }

/-- R82, R84, SHR and SHL: `V[X]` shifted by one (`SHIFT_SOURCE` = VX, D10: every `Y` gives the same), then VF is the bit
shifted out (G13). -/
def Obligations.ShiftFormsSetTheBitShiftedOutLast : Prop :=
  ∀ (s : State) (x y : RegIndex),
    exec (.shr x y) s =
      .next { s with
        v := (s.v.set x (BitVec.ofNat 8 (s.v[x].toNat / 2))).set 15 (BitVec.ofNat 8 (s.v[x].toNat % 2))
        pc := s.pc + 2#16 } ∧
    exec (.shl x y) s =
      .next { s with
        v := (s.v.set x (BitVec.ofNat 8 (2 * s.v[x].toNat % 256))).set 15 (BitVec.ofNat 8 (s.v[x].toNat / 128))
        pc := s.pc + 2#16 }

/-- R85, RND: the fresh free byte of the cycle masked with `NN` (D15, log 3). It holds whatever the byte is. -/
def Obligations.RndMasksAFreshFreeByte : Prop :=
  ∀ (s : State) (x : RegIndex) (nn : Byte),
    exec (.rnd x nn) s =
      .next { s with
        v := s.v.set x (Config.randomByte s.draws &&& nn), pc := s.pc + 2#16, draws := s.draws + 1 }

/-! ### Skips (42_skips.md) -/

/-- R87, R88, SE and SNE with a byte (the comparisons are G18): `pc` advances by 4 or by 2, and nothing else changes. -/
def Obligations.ByteSkipsCompareWithTheImmediate : Prop :=
  ∀ (s : State) (x : RegIndex) (nn : Byte),
    exec (.seByte x nn) s = .next { s with pc := s.pc + (if s.v[x] = nn then 4#16 else 2#16) } ∧
    exec (.sneByte x nn) s = .next { s with pc := s.pc + (if s.v[x] = nn then 2#16 else 4#16) }

/-- R89, R90, SE and SNE with a register (the comparisons are G18). -/
def Obligations.RegisterSkipsCompareTheRegisters : Prop :=
  ∀ (s : State) (x y : RegIndex),
    exec (.seReg x y) s = .next { s with pc := s.pc + (if s.v[x] = s.v[y] then 4#16 else 2#16) } ∧
    exec (.sneReg x y) s = .next { s with pc := s.pc + (if s.v[x] = s.v[y] then 2#16 else 4#16) }

/-- R91 to R93, SKP and SKNP: the key numbered by `V[X]` decides the skip; above 15 both raise `InvalidKeyIndex(V[X])`
(`KEY_INDEX_POLICY` = fault, D18). -/
def Obligations.KeySkipsTestTheNumberedKey : Prop :=
  ∀ (s : State) (x : RegIndex),
    (∀ k : KeyIndex, s.v[x].toNat = k.val →
      exec (.skp x) s = .next { s with pc := s.pc + (if s.keys[k] = true then 4#16 else 2#16) } ∧
      exec (.sknp x) s = .next { s with pc := s.pc + (if s.keys[k] = true then 2#16 else 4#16) }) ∧
    (15 < s.v[x].toNat →
      Raises (exec (.skp x) s) s (.invalidKeyIndex s.v[x]) ∧ Raises (exec (.sknp x) s) s (.invalidKeyIndex s.v[x]))

/-! ### Control transfer (43_control_transfer.md) -/

/-- R94, SYS: its effect is the error `UnknownOpcode(0x0NNN)`, taken as a halted next state (`SYS_POLICY` = fault, D9). -/
def Obligations.SysRaisesUnknownOpcode : Prop :=
  ∀ (s : State) (nnn : Addr12), Raises (exec (.sys nnn) s) s (.unknownOpcode (BitVec.ofNat 16 nnn.toNat))

/-- R95, R25, RET: `pc` is the popped address with no advance (D20), `SP` is lowered, the slot keeps its value; with `SP = 0` it
raises `StackUnderflow`. -/
def Obligations.RetPopsTheReturnAddress : Prop :=
  ∀ s : State,
    (∀ (k : Nat) (hk : k < 16), s.sp.val = k + 1 →
      exec .ret s = .next { s with sp := ⟨k, by omega⟩, pc := s.stack[k] }) ∧
    (s.sp.val = 0 → Raises (exec .ret s) s (.stackUnderflow s.pc))

/-- R96, R69, JP: an even target is loaded, an odd one raises `MisalignedProgramCounter` (D8). -/
def Obligations.JpLoadsEvenTargets : Prop :=
  ∀ (s : State) (nnn : Addr12),
    (nnn.toNat % 2 = 0 → exec (.jp nnn) s = .next { s with pc := BitVec.ofNat 16 nnn.toNat }) ∧
    (nnn.toNat % 2 = 1 → Raises (exec (.jp nnn) s) s (.misalignedProgramCounter nnn.toNat))

/-- R97, R24, R117, CALL: the target is checked first (D8), then the stack; the address pushed is `pc + 2` (D20). -/
def Obligations.CallPushesTheNextAddress : Prop :=
  ∀ (s : State) (nnn : Addr12),
    (∀ h : s.sp.val < 16, nnn.toNat % 2 = 0 →
      exec (.call nnn) s =
        .next { s with
          stack := s.stack.set s.sp.val (s.pc + 2#16) h, sp := ⟨s.sp.val + 1, by omega⟩
          pc := BitVec.ofNat 16 nnn.toNat }) ∧
    (nnn.toNat % 2 = 1 → Raises (exec (.call nnn) s) s (.misalignedProgramCounter nnn.toNat)) ∧
    (nnn.toNat % 2 = 0 → s.sp.val = 16 → Raises (exec (.call nnn) s) s (.stackOverflow s.pc))

/-- R98, JP V0: the target is `NNN + V0` with no wrap at 12 bits (`JUMP_OFFSET_REG` = V0, D12); odd targets raise (D8). -/
def Obligations.JpV0AddsTheOffsetRegister : Prop :=
  ∀ (s : State) (nnn : Addr12),
    ((nnn.toNat + s.v[0].toNat) % 2 = 0 →
      exec (.jpV0 nnn) s = .next { s with pc := BitVec.ofNat 16 (nnn.toNat + s.v[0].toNat) }) ∧
    ((nnn.toNat + s.v[0].toNat) % 2 = 1 →
      Raises (exec (.jpV0 nnn) s) s (.misalignedProgramCounter (nnn.toNat + s.v[0].toNat)))

/-! ### Key wait and timers (44_keys_and_timers.md) -/

/-- R99, R67, R30, LD Vx, K: with no key pressed nothing at all changes; else the lowest pressed key is stored (D19). -/
def Obligations.KeyWaitBlocksOrStoresTheLowestKey : Prop :=
  ∀ (s : State) (x : RegIndex),
    ((∀ k : KeyIndex, s.keys[k] = false) → exec (.ldKey x) s = .next s) ∧
    (∀ k : KeyIndex, s.keys[k] = true → (∀ j : KeyIndex, j < k → s.keys[j] = false) →
      exec (.ldKey x) s = .next { s with v := s.v.set x (BitVec.ofNat 8 k.val), pc := s.pc + 2#16 })

/-- R100, LD Vx, DT. -/
def Obligations.LdFromDTReadsTheDelayTimer : Prop :=
  ∀ (s : State) (x : RegIndex),
    exec (.ldFromDT x) s = .next { s with v := s.v.set x s.dt, pc := s.pc + 2#16 }

/-- R101, R102, LD DT, Vx and LD ST, Vx: the timer is overwritten. -/
def Obligations.TimerWritesOverwriteTheTimer : Prop :=
  ∀ (s : State) (x : RegIndex),
    exec (.ldToDT x) s = .next { s with dt := s.v[x], pc := s.pc + 2#16 } ∧
    exec (.ldToST x) s = .next { s with st := s.v[x], pc := s.pc + 2#16 }

/-! ### Display (45_display.md) -/

/-- R103, CLS: every cell becomes unset, and nothing but `pc` changes besides. -/
def Obligations.ClsClearsEveryCell : Prop :=
  ∀ s : State, ∃ d, exec .cls s = .next { s with disp := d, pc := s.pc + 2#16 } ∧
    ∀ (c : Column) (r : Row), d[c][r] = false

/-- R104, R105, R117, DRW. On a sprite that lies in memory: each cell is combined by XOR with the sprite's pixel over it, pixels
wrapping at both edges (D16) and bit 7 of a row byte leftmost (G7), and VF is then 1 when a set cell was covered, else 0; `N = 0` draws nothing wherever `I` is. On
a sprite that runs past the end of memory: the error of the lowest address at or above 4096. -/
def Obligations.DrwXorsTheSpriteAndReportsCollision : Prop :=
  ∀ (s : State) (x y : RegIndex) (n : Nibble),
    (n.toNat = 0 ∨ s.i.toNat + n.toNat ≤ 4096 →
      ∃ d, exec (.drw x y n) s =
          .next { s with
            disp := d
            v := s.v.set 15
              (if ∃ (c : Column) (r : Row), s.disp[c][r] = true ∧ spriteCovers s x y n c r = true then 1#8 else 0#8)
            pc := s.pc + 2#16 } ∧
        ∀ (c : Column) (r : Row), d[c][r] = (s.disp[c][r] ^^ spriteCovers s x y n c r)) ∧
    (n.toNat ≠ 0 → 4096 < s.i.toNat + n.toNat →
      Raises (exec (.drw x y n) s) s (.outOfRangeMemoryAccess (max s.i.toNat 4096)))

/-- R106: drawing the same sprite twice at the same place restores the display, and the second draw collides exactly when
some covered cell was unset before the first (C2). -/
def Obligations.DrawingTwiceRestoresTheDisplay : Prop :=
  ∀ (d : Display) (x0 : Column) (y0 : Row) (rows : List Byte), rows.length ≤ 15 →
    (drawSprite (drawSprite d x0 y0 rows).1 x0 y0 rows).1 = d ∧
    ((drawSprite (drawSprite d x0 y0 rows).1 x0 y0 rows).2 = true ↔
      ∃ p ∈ spritePixels x0 y0 rows, d[p.1][p.2] = false)

/-! ### Index register and memory transfer (46_index_and_memory.md) -/

/-- R108, LD I, addr. -/
def Obligations.LdILoadsTheAddress : Prop :=
  ∀ (s : State) (nnn : Addr12),
    exec (.ldI nnn) s = .next { s with i := BitVec.ofNat 16 nnn.toNat, pc := s.pc + 2#16 }

/-- R109, R110, ADD I, Vx and LD F, Vx: the sum modulo 2^16 with VF not written (D14); the glyph of the digit in the low nibble,
five bytes a glyph (D17, `FONT_BASE` = 0 by D6). -/
def Obligations.AddIWrapsAndLdGlyphPointsAtTheDigit : Prop :=
  ∀ (s : State) (x : RegIndex),
    exec (.addI x) s =
      .next { s with i := BitVec.ofNat 16 ((s.i.toNat + s.v[x].toNat) % 65536), pc := s.pc + 2#16 } ∧
    exec (.ldGlyph x) s = .next { s with i := BitVec.ofNat 16 (5 * (s.v[x].toNat % 16)), pc := s.pc + 2#16 }

/-- R111, LD B, Vx: hundreds, tens and ones at `I`, `I + 1`, `I + 2` (the order is G14, log 41), every other address as before, `I` unchanged; past the end
of memory the error of the lowest address at or above 4096. -/
def Obligations.BcdStoresThreeDigits : Prop :=
  ∀ (s : State) (x : RegIndex), s.mem.wf →
    (s.i.toNat + 2 < 4096 → ∃ m, exec (.ldBcd x) s = .next { s with mem := m, pc := s.pc + 2#16 } ∧
      m.read s.i.toNat = BitVec.ofNat 8 (s.v[x].toNat / 100) ∧
      m.read (s.i.toNat + 1) = BitVec.ofNat 8 (s.v[x].toNat / 10 % 10) ∧
      m.read (s.i.toNat + 2) = BitVec.ofNat 8 (s.v[x].toNat % 10) ∧
      ∀ a, (a < s.i.toNat ∨ s.i.toNat + 2 < a) → m.read a = s.mem.read a) ∧
    (4096 ≤ s.i.toNat + 2 → Raises (exec (.ldBcd x) s) s (.outOfRangeMemoryAccess (max s.i.toNat 4096)))

/-- R112, LD [I], Vx: `V[0]`..`V[X]` at `I`..`I + X`, every other address as before, `I` unchanged (`MEM_INCREMENTS_I` = false, D13);
past the end of memory the error of the lowest address at or above 4096. -/
def Obligations.DumpStoresTheFirstRegisters : Prop :=
  ∀ (s : State) (x : RegIndex), s.mem.wf →
    (s.i.toNat + x.val < 4096 → ∃ m, exec (.dump x) s = .next { s with mem := m, pc := s.pc + 2#16 } ∧
      (∀ k : RegIndex, k ≤ x → m.read (s.i.toNat + k.val) = s.v[k]) ∧
      ∀ a, (a < s.i.toNat ∨ s.i.toNat + x.val < a) → m.read a = s.mem.read a) ∧
    (4096 ≤ s.i.toNat + x.val → Raises (exec (.dump x) s) s (.outOfRangeMemoryAccess (max s.i.toNat 4096)))

/-- R113, LD Vx, [I]: `V[0]`..`V[X]` from `I`..`I + X`, the other registers, memory and `I` (D13) unchanged; past the end of memory the
error of the lowest address at or above 4096. -/
def Obligations.LoadFillsTheFirstRegisters : Prop :=
  ∀ (s : State) (x : RegIndex),
    (s.i.toNat + x.val < 4096 → ∃ v, exec (.load x) s = .next { s with v := v, pc := s.pc + 2#16 } ∧
      ∀ k : RegIndex, v[k] = if k ≤ x then s.mem.read (s.i.toNat + k.val) else s.v[k]) ∧
    (4096 ≤ s.i.toNat + x.val → Raises (exec (.load x) s) s (.outOfRangeMemoryAccess (max s.i.toNat 4096)))

/-! ### Frames over all instructions -/

/-- R16, R17: a completed instruction changes no data register but those it may write: its destination, VF for 8XY4, 8XY5,
8XY6, 8XY7, 8XYE and DXYN, and `V[0]`..`V[X]` for FX65. -/
def Obligations.OnlyDestinationRegistersChange : Prop :=
  ∀ (i : Instr) (s t : State), exec i s = .next t → t.Running →
    ∀ k : RegIndex, mayWriteV i k = false → t.v[k] = s.v[k]

/-- R36, R44: of the completed instructions only FX33 and FX55 change a byte of memory. -/
def Obligations.OnlyBcdAndDumpChangeMemory : Prop :=
  ∀ (i : Instr) (s t : State), exec i s = .next t → t.Running →
    (∀ x, i ≠ .ldBcd x) → (∀ x, i ≠ .dump x) → ∀ a, t.mem.read a = s.mem.read a

/-- R19, R23, R27, R29, R31, R34: the special state changes only by the forms that name it: `I` by ANNN, FX1E, FX29; the
stack and `SP` by CALL and RET; `DT` by FX15; `ST` by FX18; the display by CLS and DRW; the keys and the run mode by no
instruction. That FX55 and FX65 are not among those of `I` is D13. -/
def Obligations.SpecialStateChangesOnlyByItsForms : Prop :=
  ∀ (i : Instr) (s t : State), exec i s = .next t → t.Running →
    ((∀ a, i ≠ .ldI a) → (∀ x, i ≠ .addI x) → (∀ x, i ≠ .ldGlyph x) → t.i = s.i) ∧
    ((∀ a, i ≠ .call a) → i ≠ .ret → t.sp = s.sp) ∧
    ((∀ a, i ≠ .call a) → t.stack = s.stack) ∧
    ((∀ x, i ≠ .ldToDT x) → t.dt = s.dt) ∧
    ((∀ x, i ≠ .ldToST x) → t.st = s.st) ∧
    (i ≠ .cls → (∀ x y n, i ≠ .drw x y n) → t.disp = s.disp) ∧
    t.keys = s.keys ∧ t.mode = s.mode ∧ t.outbox = s.outbox ∧ t.events = s.events

/-- R27: no instruction reads `ST`: an instruction that completes does the same, and leaves the same state, whatever `ST`
holds (but for FX18, which overwrites it: TimerWritesOverwriteTheTimer). RND is compared at the same random byte, the second
argument of R71's cycle: both sides have equal `draws`, and so equal bytes, by the model's choice (D15, log 3). -/
def Obligations.NoInstructionReadsTheSoundTimer : Prop :=
  ∀ (i : Instr) (s t : State) (b : Byte), exec i s = .next t → t.Running → (∀ x, i ≠ .ldToST x) →
    exec i { s with st := b } = .next { t with st := b }

/-- R29: the key state is read by SKP, SKNP and FX0A alone. RND is compared at the same random byte, the second argument of
R71's cycle: both sides have equal `draws`, and so equal bytes, by the model's choice (D15, log 3). -/
def Obligations.OnlyKeyFormsReadTheKeys : Prop :=
  ∀ (i : Instr) (s t : State) (k : Vector Bool 16), exec i s = .next t → t.Running →
    (∀ x, i ≠ .skp x) → (∀ x, i ≠ .sknp x) → (∀ x, i ≠ .ldKey x) →
    exec i { s with keys := k } = .next { t with keys := k }

/-! ### Errors, modes and events (60_exceptions.md) -/

/-- R68, R114, R115, R139: a cycle leaves the run mode and puts out nothing, or ends in `Halted(e)` with the `pc` of the cycle
and the signal `halted` (the list of signals is the model's, log 5); no instruction halts the machine in another way. -/
def Obligations.CycleKeepsTheModeOrHaltsWithAnError : Prop :=
  ∀ s t : State, cycle s = .next t →
    (t.mode = s.mode ∧ t.outbox = s.outbox ∧ t.events = s.events) ∨ ∃ e, Raises (cycle s) s e

/-- R119, R126: `Halted` is terminal. However many events arrive, each is taken with no effect (D28, log 28), and a step with
no event waiting answers the same state (the model's choice, log 4). -/
def Obligations.HaltedIsTerminal : Prop :=
  ∀ (n : Nat) (s : State) (r : HaltReason), s.mode = .halted r →
    core.run n s = .next { s with events := s.events.drop n }

/-- R121: the transitions of the lifecycle in one step: from `Running(m)` only a `ToggleMode` changes the run mode, only a `Quit`
gives `Halted(Quit)`, and otherwise the mode stays or a cycle's error halts; `Halted` stays. What a step does with no event
waiting is the model's choice (log 4), and that a `Step` in Standard has no effect is D28 (log 28). -/
def Obligations.LifecycleTransitionsAreTheTable : Prop :=
  ∀ s t : State, step s = .next t →
    match s.mode with
    | .halted r => t.mode = .halted r
    | .running m =>
      match s.events with
      | .toggleMode :: _ => t.mode = .running (if m = .standard then .debug else .standard)
      | .quit :: _ => t.mode = .halted .quit
      | .tick :: _ | .key _ _ :: _ => t.mode = .running m
      | .cycle :: _ | .step :: _ | [] => t.mode = .running m ∨ ∃ e, t.mode = .halted (.error e (some s.pc))

/-- R127 to R129: a tick puts out the frame and the tone as they stand (D26), then takes one from each timer that is above 0,
and changes nothing else, in either run mode. The list of signals is the model's (log 5). -/
def Obligations.TickPresentsThenCountsDown : Prop :=
  ∀ (s : State) (m : RunMode) (rest : List Event), s.mode = .running m → s.events = .tick :: rest →
    step s = .next { s with
      events := rest, dt := BitVec.ofNat 8 (s.dt.toNat - 1), st := BitVec.ofNat 8 (s.st.toNat - 1)
      outbox := s.outbox ++ [.frame s.disp, .tone (decide (s.st ≠ 0#8))] }

/-- R27, R127 and the source's property (W4): after `n` ticks each timer is lowered by `n`, saturating at 0, and `n` frames and
tones have been put out; the tone is on at exactly the first `ST` of them (D26). The lists of events and signals are the model's
(logs 4, 5). -/
def Obligations.TicksSaturateTheTimersAtZero : Prop :=
  ∀ (n : Nat) (s : State) (m : RunMode), s.mode = .running m → s.events = List.replicate n .tick →
    ∃ t : State, core.run n s = .next t ∧ t.dt.toNat = s.dt.toNat - n ∧ t.st.toNat = s.st.toNat - n ∧ t.pc = s.pc ∧ t.v = s.v ∧
      t.outbox = s.outbox ++ (List.range n).flatMap fun k => [.frame s.disp, .tone (decide (k < s.st.toNat))]

/-- R130: a key event sets that key's bit and nothing else, in either run mode; in `Halted` it has no effect (D25, D28). -/
def Obligations.KeyEventSetsOneKey : Prop :=
  ∀ (s : State) (k : KeyIndex) (b : Bool) (rest : List Event), s.events = .key k b :: rest →
    (∀ m, s.mode = .running m → step s = .next { s with events := rest, keys := s.keys.set k b }) ∧
    (∀ r, s.mode = .halted r → step s = .next { s with events := rest })

/-- R124: ToggleMode changes the run mode to the other one, and nothing else. -/
def Obligations.ToggleModeChangesOnlyTheRunMode : Prop :=
  ∀ (s : State) (rest : List Event), s.events = .toggleMode :: rest →
    (s.mode = .running .standard → step s = .next { s with events := rest, mode := .running .debug }) ∧
    (s.mode = .running .debug → step s = .next { s with events := rest, mode := .running .standard })

/-- R125: Quit in `Running(_)` gives `Halted(Quit)`, with the signal `halted` (R138), at once: also where the next cycle would block
on a key. That nothing else changes is log 38 (DEDUCED), and the list of signals is the model's (log 5). -/
def Obligations.QuitHaltsAtOnce : Prop :=
  ∀ (s : State) (m : RunMode) (rest : List Event), s.mode = .running m → s.events = .quit :: rest →
    step s = .next { s with events := rest, mode := .halted .quit, outbox := s.outbox ++ [.halted .quit] }

/-- R123: in `Running(Debug)` no cycle runs by itself (that a step with no event waiting answers the same state is the model's
choice, log 4, as is the list of events); a `Step` runs exactly one, one that meets FX0A with no key pressed changes
nothing; the timers still tick. -/
def Obligations.DebugRunsOneCyclePerStep : Prop :=
  ∀ s : State, s.mode = .running .debug →
    (s.events = [] → step s = .next s) ∧
    (∀ rest, s.events = .step :: rest → step s = cycle { s with events := rest }) ∧
    (∀ rest x, s.events = .step :: rest → fetchDecode s = .ok (.ldKey x) → (∀ k : KeyIndex, s.keys[k] = false) →
      step s = .next { s with events := rest }) ∧
    (∀ rest, s.events = .tick :: rest → ∃ t, step s = .next t ∧
      t.dt = BitVec.ofNat 8 (s.dt.toNat - 1) ∧ t.st = BitVec.ofNat 8 (s.st.toNat - 1) ∧ t.mode = .running .debug)

/-- R126, R131: `Step` in Standard and `Cycle` in Debug have no effect (D28; the second is V-CYC-9). -/
def Obligations.EventsOfTheOtherModeHaveNoEffect : Prop :=
  ∀ (s : State) (rest : List Event),
    (s.mode = .running .standard → s.events = .step :: rest → step s = .next { s with events := rest }) ∧
    (s.mode = .running .debug → s.events = .cycle :: rest → step s = .next { s with events := rest })

/-! ### Boot, reset and the invariant (70_reset_and_hazards.md) -/

/-- R143: the state after reset, before a program image (log 6): `pc` at 0x200, the display clear, no key pressed; the zeros of `V`,
`I`, `SP`, the stack, `DT`, `ST` and free memory are D4 and D5, the glyphs are D6, and Standard is the model's choice (log 6). -/
def Obligations.ResetStateIsTheTable : Prop :=
  State.reset.pc = 0x200#16 ∧ (∀ x : RegIndex, State.reset.v[x] = 0#8) ∧ State.reset.i = 0#16 ∧
  State.reset.sp = 0 ∧ (∀ k : Fin 16, State.reset.stack[k] = 0#16) ∧ State.reset.dt = 0#8 ∧ State.reset.st = 0#8 ∧
  (∀ (c : Column) (r : Row), State.reset.disp[c][r] = false) ∧ (∀ k : KeyIndex, State.reset.keys[k] = false) ∧
  State.reset.mode = .running .standard ∧
  (∀ a, a < 80 → State.reset.mem.read a = Config.fontData.getD a 0#8) ∧ ∀ a, 80 ≤ a → State.reset.mem.read a = 0#8

/-- R140, R143: boot with an image of 1 to 3584 bytes: the image at 0x200, every other address and component as at reset, and the
run mode the boot argument. -/
def Obligations.BootLoadsTheImage : Prop :=
  ∀ (image : List Byte) (m : RunMode), 1 ≤ image.length → image.length ≤ 3584 →
    ∃ mem, boot image m = { State.reset with mem := mem, mode := .running m } ∧ mem.wf ∧
      (∀ j, j < image.length → mem.read (0x200 + j) = image.getD j 0#8) ∧
      ∀ a, (a < 0x200 ∨ 0x200 + image.length ≤ a) → mem.read a = State.reset.mem.read a

/-- R141, R142: an empty image and one of more than 3584 bytes are refused at boot (the kind `EmptyProgram` is D23, log 26). R119,
R121, R126: no cycle ever runs: whatever events arrive, each is taken with no effect (D28, log 28), and a step with no event
waiting answers the same state (the model's choice, log 4). -/
def Obligations.BootRefusesEmptyAndTooLargeImages : Prop :=
  ∀ (image : List Byte) (m : RunMode) (evs : List Event) (n : Nat),
    (image.length = 0 →
      (boot image m).mode = .halted (.error .emptyProgram none) ∧
      core.run n { boot image m with events := evs } = .next { boot image m with events := evs.drop n }) ∧
    (3584 < image.length →
      (boot image m).mode = .halted (.error (.programTooLarge image.length) none) ∧
      core.run n { boot image m with events := evs } = .next { boot image m with events := evs.drop n })

/-- The invariant holds after reset and after every boot, failed ones included (whose memory is a free value in the model's
canonical form, logs 2 and 8). -/
def Obligations.InvariantHoldsAtResetAndBoot : Prop :=
  State.reset.Inv ∧ ∀ (image : List Byte) (m : RunMode), (boot image m).Inv

/-- R21 (D8), R22 and R95 (both derived by the spec) and the model's canonical form of memory (log 8, and log 2 after an error):
every step keeps the invariant, from every state that meets it: memory canonical, and while running `pc` even and at most
0x10FE, and every occupied stack slot even and at most 0x1000. -/
def Obligations.EveryStepKeepsTheInvariant : Prop :=
  ∀ s t : State, s.Inv → step s = .next t → t.Inv
end

