-- ==== Sys2Proof/Laws/Display.lean ====
section
/-! SUPPORT. What the blit engine does (R105): every covered cell is toggled once, no other cell changes, and the result
says whether a covered cell was set. -/

namespace Sys2Proof.Machine

theorem Display.cell_toggle (d : Display) (c c' : Column) (r r' : Row) :
    Display.cell (Display.toggle d c r) c' r' = (Display.cell d c' r' ^^ decide ((c', r') = (c, r))) := by
  simp only [Display.cell, Display.toggle, Fin.getElem_fin, Vector.getElem_set, Prod.mk.injEq, Fin.ext_iff]
  by_cases hc : c.val = c'.val
  · by_cases hr : r.val = r'.val <;> simp [hc, hr, eq_comm]
  · simp [hc, eq_comm]

/-- Two displays with the same cells are the same. -/
theorem Display.ext_cell {d e : Display} (h : ∀ c r, Display.cell d c r = Display.cell e c r) : d = e := by
  ext i hi j hj
  exact h ⟨i, hi⟩ ⟨j, hj⟩

theorem Display.cell_clear (c : Column) (r : Row) : Display.cell Display.clear c r = false := by
  simp [Display.cell, Display.clear]

/-- Blitting distinct pixels: each is toggled once, and the result tells whether one of them was set. -/
theorem foldl_blitPixel {px : List (Column × Row)} (hn : px.Nodup) (d : Display) (b : Bool) :
    (∀ c r, Display.cell (px.foldl blitPixel (d, b)).1 c r = (Display.cell d c r ^^ decide ((c, r) ∈ px))) ∧
      (px.foldl blitPixel (d, b)).2 = (b || px.any fun p => Display.cell d p.1 p.2) := by
  induction px generalizing d b with
  | nil => simp
  | cons p px ih =>
    obtain ⟨hp, hn⟩ := List.nodup_cons.1 hn
    obtain ⟨h1, h2⟩ := ih hn (Display.toggle d p.1 p.2) (b || Display.cell d p.1 p.2)
    refine ⟨fun c r => ?_, ?_⟩
    · rw [List.foldl_cons, blitPixel, h1, Display.cell_toggle]
      by_cases h : (c, r) = p
      · subst h; simp [hp]
      · simp [h]
    · rw [List.foldl_cons, blitPixel, h2, List.any_cons, Bool.or_assoc]
      congr 2
      rw [Bool.eq_iff_iff]
      simp only [List.any_eq_true]
      refine exists_congr fun q => and_congr_right fun hq => ?_
      rw [Display.cell_toggle]
      have : (q.1, q.2) ≠ (p.1, p.2) := by rintro h; exact hp (by rwa [show p = q from h.symm])
      simp [this]

theorem mem_rowPixels {x0 : Column} {r0 : Row} {row : Byte} {p : Column × Row} :
    p ∈ rowPixels x0 r0 row ↔
      ∃ j < 8, row.getLsbD (7 - j) = true ∧ p = (x0 + Fin.ofNat 64 j, r0) := by
  simp only [rowPixels, List.mem_map, List.mem_filter, List.mem_range]
  constructor
  · rintro ⟨j, ⟨hj, hb⟩, rfl⟩; exact ⟨j, hj, hb, rfl⟩
  · rintro ⟨j, hj, hb, rfl⟩; exact ⟨j, ⟨hj, hb⟩, rfl⟩

/-- The cells of a sprite (R105): bit `7 - j` of row byte `i` covers `((x0 + j) mod 64, (y0 + i) mod 32)`. -/
theorem mem_spritePixels {x0 : Column} {y0 : Row} {rows : List Byte} {p : Column × Row} :
    p ∈ spritePixels x0 y0 rows ↔
      ∃ i < rows.length, ∃ j < 8, (rows.getD i 0#8).getLsbD (7 - j) = true ∧
        p = (x0 + Fin.ofNat 64 j, y0 + Fin.ofNat 32 i) := by
  induction rows generalizing y0 with
  | nil => simp [spritePixels]
  | cons row rows ih =>
    simp only [spritePixels, List.mem_append, mem_rowPixels, ih]
    constructor
    · rintro (⟨j, hj, hb, rfl⟩ | ⟨i, hi, j, hj, hb, rfl⟩)
      · exact ⟨0, by simp, j, hj, by simpa using hb, by simp⟩
      · refine ⟨i + 1, by simpa using hi, j, hj, by simpa using hb, ?_⟩
        simp only [Prod.mk.injEq, true_and, Fin.ext_iff, Fin.val_add, Fin.val_ofNat]
        simp
        omega
    · rintro ⟨i, hi, j, hj, hb, rfl⟩
      cases i with
      | zero => exact .inl ⟨j, hj, by simpa using hb, by simp⟩
      | succ i =>
        refine .inr ⟨i, by simpa using hi, j, hj, by simpa using hb, ?_⟩
        simp only [Prod.mk.injEq, true_and, Fin.ext_iff, Fin.val_add, Fin.val_ofNat]
        simp
        omega

theorem nodup_rowPixels (x0 : Column) (r0 : Row) (row : Byte) : (rowPixels x0 r0 row).Nodup := by
  refine List.Nodup.map_on (fun j hj k hk h => ?_) ((List.nodup_range).filter _)
  simp only [List.mem_filter, List.mem_range] at hj hk
  simp only [Prod.mk.injEq, and_true, Fin.ext_iff, Fin.val_add, Fin.val_ofNat] at h
  omega

/-- No cell is visited twice within one draw (R105), since a sprite is at most 8 wide and 32 tall. -/
theorem nodup_spritePixels (x0 : Column) (y0 : Row) {rows : List Byte} (h : rows.length ≤ 32) :
    (spritePixels x0 y0 rows).Nodup := by
  induction rows generalizing y0 with
  | nil => simp [spritePixels]
  | cons row rows ih =>
    simp only [List.length_cons] at h
    refine List.nodup_append.2 ⟨nodup_rowPixels x0 y0 row, ih (y0 + 1) (by omega), ?_⟩
    rintro p hp q hq rfl
    obtain ⟨j, -, -, rfl⟩ := mem_rowPixels.1 hp
    obtain ⟨i, hi, k, -, -, hpq⟩ := mem_spritePixels.1 hq
    simp only [Prod.mk.injEq, Fin.ext_iff, Fin.val_add, Fin.val_ofNat] at hpq
    have := hpq.2
    have := y0.isLt
    simp at *
    omega

/-- What `draw_sprite` does (R105), for a sprite of at most 32 rows. -/
theorem drawSprite_spec (d : Display) (x0 : Column) (y0 : Row) {rows : List Byte} (h : rows.length ≤ 32) :
    (∀ c r, Display.cell (drawSprite d x0 y0 rows).1 c r =
        (Display.cell d c r ^^ decide ((c, r) ∈ spritePixels x0 y0 rows))) ∧
      (drawSprite d x0 y0 rows).2 = (spritePixels x0 y0 rows).any fun p => Display.cell d p.1 p.2 := by
  have := foldl_blitPixel (nodup_spritePixels x0 y0 h) d false
  simpa [drawSprite] using this

end Sys2Proof.Machine
end

