-- ==== Sys2Proof/Laws/Encoding.lean ====
section
/-! SUPPORT. The bits of an encoded instruction, and that the fields of an opcode are the ones it was built from. -/

namespace Sys2Proof

theorem getElem_encodeNNN (c : Nibble) (a : Addr12) (k : Nat) (h : k < 16) :
    (encodeNNN c a)[k] = if k < 12 then a.getLsbD k else c.getLsbD (k - 12) := by
  rw [BitVec.getElem_eq_testBit_toNat, ← BitVec.getLsbD]
  exact BitVec.getLsbD_append

theorem getElem_encodeXNN (c : Nibble) (x : RegIndex) (nn : Byte) (k : Nat) (h : k < 16) :
    (encodeXNN c x nn)[k] =
      if k < 12 then (if k < 8 then nn.getLsbD k else (regNibble x).getLsbD (k - 8)) else c.getLsbD (k - 12) := by
  rw [BitVec.getElem_eq_testBit_toNat, ← BitVec.getLsbD]
  exact BitVec.getLsbD_append.trans (by rw [BitVec.getLsbD_append])

theorem getElem_encodeXYN (c : Nibble) (x y : RegIndex) (n : Nibble) (k : Nat) (h : k < 16) :
    (encodeXYN c x y n)[k] =
      if k < 12 then (if k < 8 then (if k < 4 then n.getLsbD k else (regNibble y).getLsbD (k - 4))
        else (regNibble x).getLsbD (k - 8)) else c.getLsbD (k - 12) := by
  rw [BitVec.getElem_eq_testBit_toNat, ← BitVec.getLsbD]
  exact BitVec.getLsbD_append.trans (by rw [BitVec.getLsbD_append, BitVec.getLsbD_append])

/-! ### The fields of an encoded word, and every word as the encoding of its fields -/

@[simp] theorem fieldC_encodeNNN (c : Nibble) (a : Addr12) : fieldC (encodeNNN c a) = c := by
  ext k hk
  simp [fieldC, ← BitVec.getLsbD_eq_getElem]
  rw [BitVec.getLsbD_eq_getElem (by omega), getElem_encodeNNN]
  simp [hk]

@[simp] theorem fieldNNN_encodeNNN (c : Nibble) (a : Addr12) : fieldNNN (encodeNNN c a) = a := by
  ext k hk
  simp [fieldNNN, ← BitVec.getLsbD_eq_getElem]
  rw [BitVec.getLsbD_eq_getElem (by omega), getElem_encodeNNN]
  simp [hk]

@[simp] theorem fieldC_encodeXNN (c : Nibble) (x : RegIndex) (a : Byte) : fieldC (encodeXNN c x a) = c := by
  ext k hk
  simp [fieldC, ← BitVec.getLsbD_eq_getElem]
  rw [BitVec.getLsbD_eq_getElem (by omega), getElem_encodeXNN]
  simp [hk]

@[simp] theorem fieldNN_encodeXNN (c : Nibble) (x : RegIndex) (a : Byte) : fieldNN (encodeXNN c x a) = a := by
  ext k hk
  simp [fieldNN, ← BitVec.getLsbD_eq_getElem]
  rw [BitVec.getLsbD_eq_getElem (by omega), getElem_encodeXNN]
  simp [hk, show k < 12 by omega]

@[simp] theorem fieldX_encodeXNN (c : Nibble) (x : RegIndex) (a : Byte) : fieldX (encodeXNN c x a) = x := by
  have : (encodeXNN c x a).extractLsb' 8 4 = regNibble x := by
    ext k hk
    simp only [← BitVec.getLsbD_eq_getElem, BitVec.getLsbD_extractLsb', hk, decide_true, Bool.true_and]
    rw [BitVec.getLsbD_eq_getElem (by omega), getElem_encodeXNN]
    simp [hk, show 8 + k < 12 by omega]
  rw [fieldX, this]; rfl

@[simp] theorem fieldC_encodeXYN (c : Nibble) (x y : RegIndex) (a : Nibble) : fieldC (encodeXYN c x y a) = c := by
  ext k hk
  simp [fieldC, ← BitVec.getLsbD_eq_getElem]
  rw [BitVec.getLsbD_eq_getElem (by omega), getElem_encodeXYN]
  simp [hk]

@[simp] theorem fieldN_encodeXYN (c : Nibble) (x y : RegIndex) (a : Nibble) : fieldN (encodeXYN c x y a) = a := by
  ext k hk
  simp [fieldN, ← BitVec.getLsbD_eq_getElem]
  rw [BitVec.getLsbD_eq_getElem (by omega), getElem_encodeXYN]
  simp [hk, show k < 12 by omega, show k < 8 by omega]

@[simp] theorem fieldX_encodeXYN (c : Nibble) (x y : RegIndex) (a : Nibble) : fieldX (encodeXYN c x y a) = x := by
  have : (encodeXYN c x y a).extractLsb' 8 4 = regNibble x := by
    ext k hk
    simp only [← BitVec.getLsbD_eq_getElem, BitVec.getLsbD_extractLsb', hk, decide_true, Bool.true_and]
    rw [BitVec.getLsbD_eq_getElem (by omega), getElem_encodeXYN]
    simp [hk, show 8 + k < 12 by omega]
  rw [fieldX, this]; rfl

@[simp] theorem fieldY_encodeXYN (c : Nibble) (x y : RegIndex) (a : Nibble) : fieldY (encodeXYN c x y a) = y := by
  have : (encodeXYN c x y a).extractLsb' 4 4 = regNibble y := by
    ext k hk
    simp only [← BitVec.getLsbD_eq_getElem, BitVec.getLsbD_extractLsb', hk, decide_true, Bool.true_and]
    rw [BitVec.getLsbD_eq_getElem (by omega), getElem_encodeXYN]
    simp [hk, show 4 + k < 12 by omega, show 4+k < 8 by omega]
  rw [fieldY, this]; rfl

theorem eq_encodeXNN (op : Word) : op = encodeXNN (fieldC op) (fieldX op) (fieldNN op) := by
  ext k hk
  rw [getElem_encodeXNN]
  have hx : regNibble (fieldX op) = op.extractLsb' 8 4 := rfl
  simp only [fieldC, hx, fieldNN, ← BitVec.getLsbD_eq_getElem]
  interval_cases k <;> simp

theorem eq_encodeNNN (op : Word) : op = encodeNNN (fieldC op) (fieldNNN op) := by
  ext k hk
  rw [getElem_encodeNNN]
  simp only [fieldC, fieldNNN, ← BitVec.getLsbD_eq_getElem]
  interval_cases k <;> simp

theorem eq_encodeXYN (op : Word) : op = encodeXYN (fieldC op) (fieldX op) (fieldY op) (fieldN op) := by
  ext k hk
  rw [getElem_encodeXYN]
  have hx : regNibble (fieldX op) = op.extractLsb' 8 4 := rfl
  have hy : regNibble (fieldY op) = op.extractLsb' 4 4 := rfl
  simp only [fieldC, hx, hy, fieldN, ← BitVec.getLsbD_eq_getElem]
  interval_cases k <;> simp

end Sys2Proof
end

