-- ==== Sys2Proof/Laws/Memory.lean ====
section
/-! SUPPORT. The laws of memory: reading after a write, and that every memory operation keeps the canonical form. -/

namespace Sys2Proof.Machine

/-- The canonical form without its bound: what the recursion of `Memory.write` works on. -/
theorem Memory.wf_cons {c : Host.Cell} {m : Memory} :
    Memory.wf (c :: m) ↔
      (∀ d ∈ m, c.1 < d.1) ∧ c.1 < Config.memSize ∧ c.2 ≠ bootByte c.1 ∧ Memory.wf m := by
  simp only [Memory.wf, List.pairwise_cons, List.forall_mem_cons]
  tauto

theorem Memory.wf_nil : Memory.wf [] := by simp [Memory.wf]

/-- An address that no cell lists reads as at boot. -/
theorem Memory.read_unlisted {m : Memory} {a : Nat} (h : ∀ c ∈ m, c.1 ≠ a) : m.read a = bootByte a := by
  induction m with
  | nil => rfl
  | cons c m ih =>
    obtain ⟨k, b⟩ := c
    simp only [List.forall_mem_cons] at h
    simp [Memory.read, h.1, ih h.2]

theorem Memory.read_consCell (m : Memory) (a a' : Nat) (b : Byte) (h : ∀ c ∈ m, a < c.1) :
    (Memory.consCell a b m).read a' = if a = a' then b else m.read a' := by
  unfold Memory.consCell
  split
  · next hb =>
    split
    · next ha => rw [← ha, hb]; exact Memory.read_unlisted fun c hc => by have := h c hc; omega
    · rfl
  · simp [Memory.read]

theorem Memory.wf_consCell {m : Memory} {a : Nat} (b : Byte) (hm : m.wf) (ha : a < Config.memSize)
    (h : ∀ c ∈ m, a < c.1) : (Memory.consCell a b m).wf := by
  unfold Memory.consCell
  split
  · exact hm
  · next hb => exact Memory.wf_cons.2 ⟨h, ha, hb, hm⟩

theorem Memory.mem_consCell {m : Memory} {a : Nat} {b : Byte} {c : Host.Cell} (h : c ∈ Memory.consCell a b m) :
    c.1 = a ∨ c ∈ m := by
  unfold Memory.consCell at h
  split at h
  · exact .inr h
  · rcases List.mem_cons.1 h with rfl | h
    · exact .inl rfl
    · exact .inr h

theorem Memory.mem_write {m : Memory} {a : Nat} {b : Byte} {c : Host.Cell} (h : c ∈ m.write a b) :
    c.1 = a ∨ c ∈ m := by
  induction m with
  | nil => exact Memory.mem_consCell h
  | cons d m ih =>
    obtain ⟨k, e⟩ := d
    simp only [Memory.write] at h
    split at h
    · exact Memory.mem_consCell h
    · split at h
      · exact (Memory.mem_consCell h).imp id (List.mem_cons_of_mem _)
      · rcases List.mem_cons.1 h with rfl | h
        · exact .inr (by simp)
        · exact (ih h).imp id (List.mem_cons_of_mem _)

/-- Reading after a write to a canonical memory: the written byte there, every other address as before. -/
theorem Memory.read_write {m : Memory} (hm : m.wf) (a a' : Nat) (b : Byte) :
    (m.write a b).read a' = if a = a' then b else m.read a' := by
  induction m with
  | nil => exact Memory.read_consCell [] a a' b (by simp)
  | cons d m ih =>
    obtain ⟨k, e⟩ := d
    obtain ⟨hlt, -, -, hw⟩ := Memory.wf_cons.1 hm
    simp only [Memory.write]
    split
    · next hk =>
      refine Memory.read_consCell _ a a' b ?_
      simp only [List.forall_mem_cons]
      exact ⟨hk, fun c hc => lt_trans hk (hlt c hc)⟩
    · split
      · next hk =>
        rw [Memory.read_consCell _ a a' b (fun c hc => hk ▸ hlt c hc)]
        simp only [Memory.read, ← hk]
        split <;> rfl
      · next hk =>
        simp only [Memory.read, ih hw]
        split
        · next h => simp [show ¬ a = a' by omega]
        · rfl

/-- A write at an address that exists keeps the canonical form. -/
theorem Memory.wf_write {m : Memory} (hm : m.wf) {a : Nat} (ha : a < Config.memSize) (b : Byte) :
    (m.write a b).wf := by
  induction m with
  | nil => exact Memory.wf_consCell b Memory.wf_nil ha (by simp)
  | cons d m ih =>
    obtain ⟨k, e⟩ := d
    obtain ⟨hlt, hk, he, hw⟩ := Memory.wf_cons.1 hm
    simp only [Memory.write]
    split
    · next h =>
      refine Memory.wf_consCell b hm ha ?_
      simp only [List.forall_mem_cons]
      exact ⟨h, fun c hc => lt_trans h (hlt c hc)⟩
    · split
      · next h => exact Memory.wf_consCell b hw ha (fun c hc => h ▸ hlt c hc)
      · next h1 h2 =>
        refine Memory.wf_cons.2 ⟨fun c hc => ?_, hk, he, ih hw⟩
        rcases Memory.mem_write hc with h | h
        · show k < c.1
          omega
        · exact hlt c h

/-- Any cells make a canonical memory: what a fatal error leaves in memory is one. -/
theorem Memory.wf_ofCells (cells : List Host.Cell) : (Memory.ofCells cells).wf := by
  have key : ∀ (l : List Host.Cell) (m : Memory), (∀ c ∈ l, c.1 < Config.memSize) → m.wf →
      (l.foldl (fun m c => Memory.write m c.1 c.2) m).wf := by
    intro l
    induction l with
    | nil => exact fun m _ hm => hm
    | cons c l ih =>
      intro m hl hm
      simp only [List.forall_mem_cons] at hl
      exact ih _ hl.2 (Memory.wf_write hm hl.1 c.2)
  exact key _ _ (fun c hc => by simpa using (List.mem_filter.1 hc).2) Memory.wf_nil

/-- Bytes written upwards inside the memory keep the canonical form. -/
theorem Memory.wf_writeList {m : Memory} (hm : m.wf) {a : Nat} {bs : List Byte}
    (h : a + bs.length ≤ Config.memSize) : (m.writeList a bs).wf := by
  induction bs generalizing m a with
  | nil => exact hm
  | cons b bs ih =>
    simp only [List.length_cons] at h
    exact ih (Memory.wf_write hm (by omega) b) (by omega)

/-- What bytes written upwards leave at an address. -/
theorem Memory.read_writeList {m : Memory} (hm : m.wf) {a : Nat} {bs : List Byte}
    (h : a + bs.length ≤ Config.memSize) (a' : Nat) :
    (m.writeList a bs).read a' = if a ≤ a' then bs.getD (a' - a) (m.read a') else m.read a' := by
  induction bs generalizing m a with
  | nil => simp [Memory.writeList]
  | cons b bs ih =>
    simp only [List.length_cons] at h
    rw [Memory.writeList, ih (Memory.wf_write hm (by omega) b) (by omega), Memory.read_write hm]
    by_cases h1 : a + 1 ≤ a'
    · obtain ⟨d, rfl⟩ := Nat.exists_eq_add_of_le h1
      simp [show a ≤ a + 1 + d by omega, show a + 1 + d - a = d + 1 by omega, show a ≠ a + 1 + d by omega]
    · by_cases h2 : a = a'
      · subst h2; simp
      · simp [h1, h2, show ¬ a ≤ a' by omega]

end Sys2Proof.Machine
end

