-- ==== Sys2Proof/Laws/Ops.lean ====
section
/-! SUPPORT. One lemma for each shared operation, saying once everything it can do: the end of a cycle, memory reads and
writes of any length, the call stack, the operand checks, the keys. -/

namespace Sys2Proof.Machine

variable {s t : State}

/-! ### The end of a cycle (R66 to R68) -/

@[simp] theorem endCycle_next (s t : State) : endCycle s (.next t) = .next (t.setPc (t.pc + 2#16)) := rfl

@[simp] theorem endCycle_jumped (s t : State) : endCycle s (.jumped t) = .next t := rfl

@[simp] theorem endCycle_blocked (s : State) : endCycle s .blocked = .next s := rfl

@[simp] theorem endCycle_fault (s : State) (e : Fault) : endCycle s (.fault e) = .next (s.takeError e (some s.pc)) := rfl

@[simp] theorem orRaise_ok {α : Type} (a : α) (k : α → CycleOutcome) : orRaise (.ok a) k = k a := rfl

@[simp] theorem orRaise_error {α : Type} (e : Fault) (k : α → CycleOutcome) : orRaise (.error e) k = .fault e := rfl

/-- A cycle always ends in a next state (R63, R68): no outcome of a cycle is a stop of the model. -/
theorem endCycle_answers (s : State) (o : CycleOutcome) : ∃ t, endCycle s o = .next t := by
  cases o <;> exact ⟨_, rfl⟩

/-- A cycle that raises ends as R68 says. -/
theorem endCycle_raises (s : State) (e : Fault) : Raises (endCycle s (.fault e)) s e :=
  ⟨_, rfl, rfl, rfl, rfl⟩

/-- Everything a cycle can end in, when it leaves the machine running. -/
theorem endCycle_running {o : CycleOutcome} (h : endCycle s o = .next t) (ht : t.Running) :
    (∃ u, o = .next u ∧ t = u.setPc (u.pc + 2#16)) ∨ o = .jumped t ∨ (o = .blocked ∧ t = s) := by
  cases o with
  | next u => exact .inl ⟨u, rfl, by simpa using h.symm⟩
  | jumped u => exact .inr (.inl (by simp at h; rw [h]))
  | blocked => exact .inr (.inr ⟨rfl, by simpa using h.symm⟩)
  | fault e =>
    simp at h
    exact absurd ht (h ▸ State.takeError_not_running s e _)

/-- `orRaise` raises exactly the error it is given, or goes on. -/
theorem orRaise_cases {α : Type} (r : Except Fault α) (k : α → CycleOutcome) :
    (∃ a, r = .ok a ∧ orRaise r k = k a) ∨ ∃ e, r = .error e ∧ orRaise r k = .fault e := by
  cases r with
  | ok a => exact .inl ⟨a, rfl, rfl⟩
  | error e => exact .inr ⟨e, rfl, rfl⟩

/-- The end of a cycle that skips or not (42_skips.md): `pc` advances by 4 or by 2, and nothing else changes. -/
theorem endCycle_skipIf (cond : Bool) (s : State) :
    endCycle s (skipIf cond s) = .next { s with pc := s.pc + if cond then 4#16 else 2#16 } := by
  cases cond <;> rfl

/-! ### Memory (R39 to R41, R44) -/

theorem memRead_of_lt {addr : Nat} (h : addr < 4096) : memRead s addr = .ok (s.mem.read addr) := by
  simp [memRead, Config.memSize, Nat.not_le.2 h]

theorem memRead_of_ge {addr : Nat} (h : 4096 ≤ addr) : memRead s addr = .error (.outOfRangeMemoryAccess addr) := by
  simp [memRead, Config.memSize, h]

theorem memWrite_of_lt {addr : Nat} (b : Byte) (h : addr < 4096) :
    memWrite s addr b = .ok (s.setMem (s.mem.write addr b)) := by
  simp [memWrite, Config.memSize, Config.lowRegionWritable, Nat.not_le.2 h]

theorem memWrite_of_ge {addr : Nat} (b : Byte) (h : 4096 ≤ addr) :
    memWrite s addr b = .error (.outOfRangeMemoryAccess addr) := by
  simp [memWrite, Config.memSize, h]

/-- A read of `n` bytes that fits gives the bytes in order. -/
theorem readBytes_fits {addr n : Nat} (h : n = 0 ∨ addr + n ≤ 4096) :
    readBytes s addr n = .ok ((List.range n).map fun k => s.mem.read (addr + k)) := by
  induction n generalizing addr with
  | zero => rfl
  | succ n ih =>
    rw [readBytes, memRead_of_lt (by omega), ih (by omega), List.range_succ_eq_map]
    simp [Function.comp_def, Nat.add_assoc, Nat.add_comm 1]

/-- A read of `n` bytes that does not fit raises the error of the lowest address that does not exist (R117). -/
theorem readBytes_overruns {addr n : Nat} (hn : n ≠ 0) (h : 4096 < addr + n) :
    readBytes s addr n = .error (.outOfRangeMemoryAccess (max addr 4096)) := by
  induction n generalizing addr with
  | zero => exact absurd rfl hn
  | succ n ih =>
    rw [readBytes]
    by_cases ha : addr < 4096
    · rw [memRead_of_lt ha, ih (by omega) (by omega), show max (addr + 1) 4096 = max addr 4096 by omega]
    · rw [memRead_of_ge (by omega), show max addr 4096 = addr by omega]

/-- A write of bytes that fits writes them all and changes memory alone. -/
theorem writeBytes_fits {addr : Nat} {bs : List Byte} (h : bs = [] ∨ addr + bs.length ≤ 4096) :
    writeBytes s addr bs = .ok (s.setMem (s.mem.writeList addr bs)) := by
  induction bs generalizing s addr with
  | nil => rfl
  | cons b bs ih =>
    simp only [List.length_cons, reduceCtorEq, false_or] at h
    rw [writeBytes, memWrite_of_lt b (by omega)]
    by_cases hb : bs = []
    · subst hb; rfl
    · have := List.length_pos_of_ne_nil hb
      simp only []
      rw [ih (.inr (by omega))]
      rfl

/-- A write of bytes that does not fit raises the error of the lowest address that does not exist (R117). -/
theorem writeBytes_overruns {addr : Nat} {bs : List Byte} (hb : bs ≠ []) (h : 4096 < addr + bs.length) :
    writeBytes s addr bs = .error (.outOfRangeMemoryAccess (max addr 4096)) := by
  induction bs generalizing s addr with
  | nil => exact absurd rfl hb
  | cons b bs ih =>
    simp only [List.length_cons] at h
    rw [writeBytes]
    by_cases ha : addr < 4096
    · rw [memWrite_of_lt b ha]
      simp only []
      have hbs : bs ≠ [] := by rintro rfl; simp at h; omega
      rw [ih hbs (by omega), show max (addr + 1) 4096 = max addr 4096 by omega]
    · rw [memWrite_of_ge b (by omega), show max addr 4096 = addr by omega]

/-- What a read of bytes depends on: memory alone. -/
theorem readBytes_of_mem {u : State} (h : u.mem = s.mem) (addr n : Nat) : readBytes u addr n = readBytes s addr n := by
  by_cases hf : n = 0 ∨ addr + n ≤ 4096
  · rw [readBytes_fits hf, readBytes_fits hf, h]
  · rw [readBytes_overruns (by omega) (by omega), readBytes_overruns (by omega) (by omega)]

/-- Everything a write of bytes can do: write them all, with the bytes inside memory, or raise. -/
theorem writeBytes_cases (s : State) (addr : Nat) (bs : List Byte) :
    ((bs = [] ∨ addr + bs.length ≤ 4096) ∧ writeBytes s addr bs = .ok (s.setMem (s.mem.writeList addr bs))) ∨
      writeBytes s addr bs = .error (.outOfRangeMemoryAccess (max addr 4096)) := by
  by_cases hf : bs = [] ∨ addr + bs.length ≤ 4096
  · exact .inl ⟨hf, writeBytes_fits hf⟩
  · push Not at hf
    exact .inr (writeBytes_overruns hf.1 hf.2)

/-! ### Call stack (R24, R25) -/

theorem pushReturn_of_lt (a : Word) (h : s.sp.val < 16) :
    pushReturn s a = .ok { s with stack := s.stack.set s.sp.val a h, sp := ⟨s.sp.val + 1, Nat.succ_lt_succ h⟩ } := by
  simp [pushReturn, Config.stackDepth, h]

theorem pushReturn_full (a : Word) (h : s.sp.val = 16) : pushReturn s a = .error (.stackOverflow s.pc) := by
  simp [pushReturn, Config.stackDepth, h]

theorem popReturn_of_pos (h : 0 < s.sp.val) :
    popReturn s = .ok (s.stack[s.sp.val - 1]'(by omega), { s with sp := ⟨s.sp.val - 1, by omega⟩ }) := by
  simp [popReturn, h]

theorem popReturn_empty (h : s.sp.val = 0) : popReturn s = .error (.stackUnderflow s.pc) := by
  simp [popReturn, h]

/-! ### Operand checks (R69, R93) -/

theorem checkTarget_even {a : Nat} (h : a % 2 = 0) : checkTarget a = .ok () := by
  simp [checkTarget, Config.oddTargetPolicy, h]

theorem checkTarget_odd {a : Nat} (h : a % 2 = 1) : checkTarget a = .error (.misalignedProgramCounter a) := by
  simp [checkTarget, Config.oddTargetPolicy, h]

theorem keyIndex_of_le {b : Byte} (h : b.toNat ≤ 15) : keyIndex b = .ok ⟨b.toNat, by omega⟩ := by
  have : ¬ 16 ≤ b.toNat := by omega
  simp [keyIndex, this, Fin.ofNat, Nat.mod_eq_of_lt (show b.toNat < 16 by omega)]

theorem keyIndex_of_gt {b : Byte} (h : 15 < b.toNat) : keyIndex b = .error (.invalidKeyIndex b) := by
  have : 16 ≤ b.toNat := h
  simp [keyIndex, Config.keyIndexPolicy, this]

/-! ### Keys (R30) -/

theorem firstPressed_none : firstPressed s = none ↔ ∀ k : KeyIndex, s.keys[k] = false := by
  simp [firstPressed, isPressed, List.find?_eq_none]

/-- `first_pressed()` is a pressed key and no lower key is pressed. -/
theorem firstPressed_some {k : KeyIndex} :
    firstPressed s = some k ↔ s.keys[k] = true ∧ ∀ j : KeyIndex, j < k → s.keys[j] = false := by
  have hs : (List.finRange 16).Pairwise (· < ·) := by decide
  have key : ∀ l : List KeyIndex, l.Pairwise (· < ·) → (l.find? (fun j => isPressed s j) = some k ↔
      k ∈ l ∧ s.keys[k] = true ∧ ∀ j ∈ l, j < k → s.keys[j] = false) := by
    intro l hl
    induction l with
    | nil => simp
    | cons a l ih =>
      obtain ⟨ha, hl⟩ := List.pairwise_cons.1 hl
      by_cases hp : isPressed s a
      · have hp' : s.keys[a] = true := hp
        rw [List.find?_cons_of_pos hp]
        constructor
        · rintro ⟨⟩
          refine ⟨by simp, hp', fun j hj hja => ?_⟩
          rcases List.mem_cons.1 hj with rfl | hj
          · exact absurd hja (lt_irrefl _)
          · exact absurd (ha j hj) (lt_asymm hja)
        · rintro ⟨hk, -, hlow⟩
          rcases List.mem_cons.1 hk with rfl | hk
          · rfl
          · have := hlow a (by simp) (ha k hk)
            simp [hp'] at this
      · have hp' : s.keys[a] = false := by simpa [isPressed] using hp
        rw [List.find?_cons_of_neg (by simpa using hp), ih hl]
        constructor
        · rintro ⟨hk, hkp, hlow⟩
          refine ⟨List.mem_cons_of_mem _ hk, hkp, fun j hj hjk => ?_⟩
          rcases List.mem_cons.1 hj with rfl | hj
          · exact hp'
          · exact hlow j hj hjk
        · rintro ⟨hk, hkp, hlow⟩
          refine ⟨?_, hkp, fun j hj => hlow j (List.mem_cons_of_mem _ hj)⟩
          rcases List.mem_cons.1 hk with rfl | hk
          · simp [hp'] at hkp
          · exact hk
  simpa [firstPressed] using key _ hs

end Sys2Proof.Machine
end

