-- ==== Sys2Proof/Laws/PerInstr.lean ====
section
/-! SUPPORT. Facts about every instruction as syntax, one lemma for each constructor. Family FixedBits: an instruction's
opcode carries the fixed bits of its row of the opcode map (R56). -/

namespace Sys2Proof.Laws.FixedBits

/-- The row of R56 an instruction stands in. -/
def rowOf (i : Instr) : OpcodeRow := opcodeMap.getD (i.row - 1) ⟨0, 0⟩

/-- `op AND mask = match` for the instruction's own opcode and row (R56). -/
def Statement (i : Instr) : Prop := encode i &&& (rowOf i).mask = (rowOf i).value

theorem nnn_bits (c : Nibble) (a : Addr12) : encodeNNN c a &&& 0xF000#16 = encodeNNN c 0#12 := by
  ext k hk
  simp only [getElem_encodeNNN, BitVec.getElem_and]
  interval_cases k <;> simp

theorem xnn_bits (c : Nibble) (x : RegIndex) (nn : Byte) :
    encodeXNN c x nn &&& 0xF000#16 = encodeXNN c 0 0#8 ∧ encodeXNN c x nn &&& 0xF0FF#16 = encodeXNN c 0 nn := by
  constructor <;>
  · ext k hk
    simp only [getElem_encodeXNN, BitVec.getElem_and]
    interval_cases k <;> simp [regNibble]

theorem xyn_bits (c : Nibble) (x y : RegIndex) (n : Nibble) :
    encodeXYN c x y n &&& 0xF000#16 = encodeXYN c 0 0 0#4 ∧
      encodeXYN c x y n &&& 0xF00F#16 = encodeXYN c 0 0 n := by
  constructor <;>
  · ext k hk
    simp only [getElem_encodeXYN, BitVec.getElem_and]
    interval_cases k <;> simp [regNibble]

theorem cls : Statement (.cls) := by unfold Statement; decide

theorem ret : Statement (.ret) := by unfold Statement; decide

theorem sys (nnn : Addr12) : Statement (.sys nnn) := nnn_bits _ _

theorem jp (nnn : Addr12) : Statement (.jp nnn) := nnn_bits _ _

theorem call (nnn : Addr12) : Statement (.call nnn) := nnn_bits _ _

theorem seByte (x : RegIndex) (nn : Byte) : Statement (.seByte x nn) := (xnn_bits _ _ _).1

theorem sneByte (x : RegIndex) (nn : Byte) : Statement (.sneByte x nn) := (xnn_bits _ _ _).1

theorem seReg (x : RegIndex) (y : RegIndex) : Statement (.seReg x y) := (xyn_bits _ _ _ _).2

theorem ldByte (x : RegIndex) (nn : Byte) : Statement (.ldByte x nn) := (xnn_bits _ _ _).1

theorem addByte (x : RegIndex) (nn : Byte) : Statement (.addByte x nn) := (xnn_bits _ _ _).1

theorem ldReg (x : RegIndex) (y : RegIndex) : Statement (.ldReg x y) := (xyn_bits _ _ _ _).2

theorem orReg (x : RegIndex) (y : RegIndex) : Statement (.orReg x y) := (xyn_bits _ _ _ _).2

theorem andReg (x : RegIndex) (y : RegIndex) : Statement (.andReg x y) := (xyn_bits _ _ _ _).2

theorem xorReg (x : RegIndex) (y : RegIndex) : Statement (.xorReg x y) := (xyn_bits _ _ _ _).2

theorem addReg (x : RegIndex) (y : RegIndex) : Statement (.addReg x y) := (xyn_bits _ _ _ _).2

theorem subReg (x : RegIndex) (y : RegIndex) : Statement (.subReg x y) := (xyn_bits _ _ _ _).2

theorem shr (x : RegIndex) (y : RegIndex) : Statement (.shr x y) := (xyn_bits _ _ _ _).2

theorem subn (x : RegIndex) (y : RegIndex) : Statement (.subn x y) := (xyn_bits _ _ _ _).2

theorem shl (x : RegIndex) (y : RegIndex) : Statement (.shl x y) := (xyn_bits _ _ _ _).2

theorem sneReg (x : RegIndex) (y : RegIndex) : Statement (.sneReg x y) := (xyn_bits _ _ _ _).2

theorem ldI (nnn : Addr12) : Statement (.ldI nnn) := nnn_bits _ _

theorem jpV0 (nnn : Addr12) : Statement (.jpV0 nnn) := nnn_bits _ _

theorem rnd (x : RegIndex) (nn : Byte) : Statement (.rnd x nn) := (xnn_bits _ _ _).1

theorem drw (x : RegIndex) (y : RegIndex) (n : Nibble) : Statement (.drw x y n) := (xyn_bits _ _ _ _).1

theorem skp (x : RegIndex) : Statement (.skp x) := (xnn_bits _ _ _).2

theorem sknp (x : RegIndex) : Statement (.sknp x) := (xnn_bits _ _ _).2

theorem ldFromDT (x : RegIndex) : Statement (.ldFromDT x) := (xnn_bits _ _ _).2

theorem ldKey (x : RegIndex) : Statement (.ldKey x) := (xnn_bits _ _ _).2

theorem ldToDT (x : RegIndex) : Statement (.ldToDT x) := (xnn_bits _ _ _).2

theorem ldToST (x : RegIndex) : Statement (.ldToST x) := (xnn_bits _ _ _).2

theorem addI (x : RegIndex) : Statement (.addI x) := (xnn_bits _ _ _).2

theorem ldGlyph (x : RegIndex) : Statement (.ldGlyph x) := (xnn_bits _ _ _).2

theorem ldBcd (x : RegIndex) : Statement (.ldBcd x) := (xnn_bits _ _ _).2

theorem dump (x : RegIndex) : Statement (.dump x) := (xnn_bits _ _ _).2

theorem load (x : RegIndex) : Statement (.load x) := (xnn_bits _ _ _).2

end Sys2Proof.Laws.FixedBits
end

