-- ==== Sys2Proof/Laws/Step.lean ====
section
/-! SUPPORT. What a fetch, a cycle, an event and a step can do, said once. -/

namespace Sys2Proof.Machine

variable {s : State}

/-! ### Fetch and cycle (R64, R65) -/

/-- A fetch whose two bytes exist gives them high byte first. -/
theorem fetch_fits (h : s.pc.toNat + 1 < 4096) :
    fetch s = .ok (wordOfBytes (s.mem.read s.pc.toNat) (s.mem.read (s.pc.toNat + 1))) := by
  rw [fetch, memRead_of_lt (by omega), memRead_of_lt (by omega)]

/-- A fetch past the end raises the error of the first byte that does not exist. -/
theorem fetch_overruns (h : 4096 ≤ s.pc.toNat + 1) :
    fetch s = .error (.outOfRangeMemoryAccess (max s.pc.toNat 4096)) := by
  rw [fetch]
  by_cases hp : s.pc.toNat < 4096
  · rw [memRead_of_lt hp, memRead_of_ge h, show max s.pc.toNat 4096 = s.pc.toNat + 1 by omega]
  · rw [memRead_of_ge (by omega), show max s.pc.toNat 4096 = s.pc.toNat by omega]

/-- A cycle raises, or executes what was fetched and decoded, and then `pc + 1` was an address that exists. -/
theorem cycle_cases (s : State) :
    (∃ e, cycle s = .next (s.takeError e (some s.pc))) ∨
      ∃ i, s.pc.toNat + 1 < 4096 ∧ fetchDecode s = .ok i ∧ cycle s = exec i s := by
  by_cases h : s.pc.toNat + 1 < 4096
  · unfold cycle
    cases hf : fetchDecode s with
    | error e => exact .inl ⟨e, rfl⟩
    | ok i => exact .inr ⟨i, h, rfl, rfl⟩
  · exact .inl ⟨.outOfRangeMemoryAccess (max s.pc.toNat 4096), by
      rw [cycle, fetchDecode, fetch_overruns (by omega)]; rfl⟩

/-! ### Every instruction answers a next state -/

theorem exec_answers (i : Instr) (s : State) : ∃ t, exec i s = .next t := by
  cases i <;> first | exact ⟨_, rfl⟩ | exact endCycle_answers _ _

/-! ### Steps -/

theorem step_event {e : Event} {rest : List Event} (h : s.events = e :: rest) :
    step s = takeEvent e { s with events := rest } := by
  simp [step, nextEvent, h]

theorem step_own (h : s.events = []) : step s = ownEvent s := by
  simp [step, nextEvent, h]

theorem takeEvent_halted (e : Event) {r : HaltReason} (h : s.mode = .halted r) : takeEvent e s = .next s := by
  simp [takeEvent, h]

theorem takeEvent_running (e : Event) {m : RunMode} (h : s.mode = .running m) : takeEvent e s = eventRunning m e s := by
  simp [takeEvent, h]

/-- A run of a host machine whose first step answers a next state. -/
theorem run_succ (M : Host.Core) (n : Nat) {a b : M.State} (h : M.step a = .next b) : M.run (n + 1) a = M.run n b := by
  simp only [Host.Core.run, h]

/-- A run of the machine whose first step answers a next state. -/
theorem core_run_succ (n : Nat) {u : State} (h : step s = .next u) : core.run (n + 1) s = core.run n u :=
  run_succ core n h

theorem core_run_zero (s : State) : core.run 0 s = .next s :=
  (rfl : Host.Core.run core 0 s = _)

/-- Everything one step can do: an event or nothing in `u` (the state without the event taken), or a cycle of it. -/
theorem step_cases (s : State) :
    ∃ u, (u = s ∨ ∃ e, s.events = e :: u.events ∧ u = { s with events := u.events }) ∧
      (step s = .next u ∨ (u.Running ∧
        (step s = cycle u ∨ step s = .next (tick u) ∨ (∃ k b, step s = .next (setKey u k b)) ∨
          (∃ m, step s = .next { u with mode := .running m }) ∨ step s = .next (u.halt .quit)))) := by
  cases he : s.events with
  | nil =>
    refine ⟨s, .inl rfl, ?_⟩
    rw [step_own he]
    cases hm : s.mode with
    | halted r => exact .inl (by simp [ownEvent, hm])
    | running m =>
      cases m with
      | standard => exact .inr ⟨⟨_, hm⟩, .inl (by simp [ownEvent, hm])⟩
      | debug => exact .inl (by simp [ownEvent, hm])
  | cons e rest =>
    obtain ⟨u, hu⟩ : ∃ u : State, u = { s with events := rest } := ⟨_, rfl⟩
    refine ⟨u, .inr ⟨e, by simp [hu], by simp [hu]⟩, ?_⟩
    rw [step_event he, ← hu]
    cases hm : u.mode with
    | halted r => exact .inl (takeEvent_halted e hm)
    | running m =>
      rw [takeEvent_running e hm]
      cases e with
      | cycle => cases m with
        | standard => exact .inr ⟨⟨_, hm⟩, .inl rfl⟩
        | debug => exact .inl rfl
      | step => cases m with
        | standard => exact .inl rfl
        | debug => exact .inr ⟨⟨_, hm⟩, .inl rfl⟩
      | tick => exact .inr ⟨⟨_, hm⟩, .inr (.inl rfl)⟩
      | key k b => exact .inr ⟨⟨_, hm⟩, .inr (.inr (.inl ⟨k, b, rfl⟩))⟩
      | toggleMode => exact .inr ⟨⟨_, hm⟩, .inr (.inr (.inr (.inl ⟨_, rfl⟩)))⟩
      | quit => exact .inr ⟨⟨_, hm⟩, .inr (.inr (.inr (.inr rfl)))⟩

end Sys2Proof.Machine
end

