-- ==== Sys2Proof/Tests/Slice0.lean ====
section
/-! SUPPORT. The model's own tests. Words are written out bit by bit from the templates of R56; expected results are the
vectors V-… of 95_test_vectors.md or hand calculation from the rule named. The witnesses at the end show that the hypotheses
of every statement can be met, clause by clause at boundary values. -/

set_option maxRecDepth 4096

namespace Sys2Proof.Tests

open Sys2Proof Sys2Proof.Machine

/-! ### Helpers -/

/-- The reset state with VF = 0x55 (so that a flag write shows) and the given registers. -/
def regs (l : List (RegIndex × Byte)) : State :=
  l.foldl (fun s p => s.setV p.1 p.2) (State.reset.setV 15 0x55#8)

/-- A state with the given bytes stored from an address upwards. -/
def bytes (s : State) (a : Nat) (bs : List Byte) : State := s.setMem (s.mem.writeList a bs)

/-- The state one step answers; where it answered no next state, the state with nothing changed. -/
def after (o : Host.Outcome State Fault Refusal) (s : State) : State :=
  match o with
  | .next t => t
  | _ => s

/-- One step of the opcode `w` placed in `s`. -/
def run (s : State) (w : Nat) : State := after (step (s.withFetchWord 16 w)) s

/-- One step with the event `e` waiting. -/
def event (s : State) (e : Event) : State := after (step { s with events := [e] }) s

/-- The mode of a cycle that raised `e` at `pc`. -/
def raised (e : Fault) (pc : Word) : Mode := .halted (.error e (some pc))

/-! ### Well-formedness: the one check (R57) refuses the two words that are CLS and RET -/

theorem test_wf_refuses_sys_0E0 : ¬ (Instr.sys 0x0E0#12).WellFormed := by decide

theorem test_wf_refuses_sys_0EE : ¬ (Instr.sys 0x0EE#12).WellFormed := by decide

theorem test_wf_accepts_sys_0E1 : (Instr.sys 0x0E1#12).WellFormed := by decide

/-! ### Decoding: a word of every form, bit by bit (R53, R56) -/

theorem test_decode_class_0 :
    decodeTableWord 16 0b0000000011100000 = some .cls ∧
    decodeTableWord 16 0b0000000011101110 = some .ret ∧
    decodeTableWord 16 0b0000000100100011 = some (.sys 0x123#12) ∧
    decodeTableWord 16 0b0000000000000000 = some (.sys 0x000#12) := by decide

theorem test_decode_jumps :
    decodeTableWord 16 0b0001101010111100 = some (.jp 0xABC#12) ∧
    decodeTableWord 16 0b0010101010111101 = some (.call 0xABD#12) ∧
    decodeTableWord 16 0b1011001100000001 = some (.jpV0 0x301#12) := by decide

theorem test_decode_skips :
    decodeTableWord 16 0b0011001000010000 = some (.seByte 0x2 0x10#8) ∧
    decodeTableWord 16 0b0100001000010001 = some (.sneByte 0x2 0x11#8) ∧
    decodeTableWord 16 0b0101101010110000 = some (.seReg 0xA 0xB) ∧
    decodeTableWord 16 0b1001101010110000 = some (.sneReg 0xA 0xB) ∧
    decodeTableWord 16 0b1110101010011110 = some (.skp 0xA) ∧
    decodeTableWord 16 0b1110101010100001 = some (.sknp 0xA) := by decide

theorem test_decode_loads_and_logic :
    decodeTableWord 16 0b0110101000101111 = some (.ldByte 0xA 0x2F#8) ∧
    decodeTableWord 16 0b0111001111111111 = some (.addByte 0x3 0xFF#8) ∧
    decodeTableWord 16 0b1000001000010000 = some (.ldReg 0x2 0x1) ∧
    decodeTableWord 16 0b1000001000010001 = some (.orReg 0x2 0x1) ∧
    decodeTableWord 16 0b1000001000010010 = some (.andReg 0x2 0x1) ∧
    decodeTableWord 16 0b1000001000010011 = some (.xorReg 0x2 0x1) := by decide

theorem test_decode_arithmetic :
    decodeTableWord 16 0b1000001000010100 = some (.addReg 0x2 0x1) ∧
    decodeTableWord 16 0b1000001000010101 = some (.subReg 0x2 0x1) ∧
    decodeTableWord 16 0b1000101010110110 = some (.shr 0xA 0xB) ∧
    decodeTableWord 16 0b1000001000010111 = some (.subn 0x2 0x1) ∧
    decodeTableWord 16 0b1000101010111110 = some (.shl 0xA 0xB) ∧
    decodeTableWord 16 0b1100001100001111 = some (.rnd 0x3 0x0F#8) := by decide

theorem test_decode_keys_timers_display :
    decodeTableWord 16 0b1101000100100101 = some (.drw 0x1 0x2 0x5#4) ∧
    decodeTableWord 16 0b1111010100000111 = some (.ldFromDT 0x5) ∧
    decodeTableWord 16 0b1111001100001010 = some (.ldKey 0x3) ∧
    decodeTableWord 16 0b1111010100010101 = some (.ldToDT 0x5) ∧
    decodeTableWord 16 0b1111001000011000 = some (.ldToST 0x2) := by decide

theorem test_decode_index_and_memory :
    decodeTableWord 16 0b1010001011110000 = some (.ldI 0x2F0#12) ∧
    decodeTableWord 16 0b1111000100011110 = some (.addI 0x1) ∧
    decodeTableWord 16 0b1111010000101001 = some (.ldGlyph 0x4) ∧
    decodeTableWord 16 0b1111011100110011 = some (.ldBcd 0x7) ∧
    decodeTableWord 16 0b1111001001010101 = some (.dump 0x2) ∧
    decodeTableWord 16 0b1111101001100101 = some (.load 0xA) := by decide

/-- V-CYC-5: words of R58. -/
theorem test_decode_unknown :
    ([0x5AB1, 0x800F, 0x8008, 0x800C, 0x9AB1, 0xE000, 0xEA9F, 0xF000, 0xF0FF, 0xFA66, 0xF01F].map
      (decodeTableWord 16)).all (·.isNone) = true := by decide

/-- V-CYC-3: the byte at the lower address is the high half. -/
theorem test_bytes_big_endian : decodeBytes [0x12#8, 0x34#8, 0xFF#8] = .ok (.jp 0x234#12, [0xFF#8]) := rfl

theorem test_bytes_too_short : decodeBytes [0x12#8] = .error .tooShort := rfl

/-- The words of R56 by hand: every field in its place. -/
theorem test_encode : encode (.drw 1 2 5#4) = 0xD125#16 ∧ encode (.call 0x400#12) = 0x2400#16 ∧
    encodeBytes (.ldByte 0xA 0x2F#8) = [0x6A#8, 0x2F#8] := by decide

/-! ### Cycle (V-CYC) -/

theorem test_cycle_at_the_end_of_memory :
    let t := run { State.reset with pc := 0x0FFE#16 } 0x602A
    t.v[0] = 0x2A#8 ∧ t.pc = 0x1000#16 := by decide

theorem test_cycle_past_the_end :
    (event { State.reset with pc := 0x1000#16 } .cycle).mode = raised (.outOfRangeMemoryAccess 0x1000) 0x1000#16 := by decide

theorem test_cycle_unknown : (run State.reset 0x5AB1).mode = raised (.unknownOpcode 0x5AB1#16) 0x200#16 := by decide

/-- V-CYC-9. -/
theorem test_cycle_in_debug :
    let s := { bytes State.reset 0x200 [0x71#8, 0x01#8] with mode := .running .debug }
    event s .cycle = s := by decide

/-- V-CYC-10. -/
theorem test_step_in_debug :
    let t := event { bytes (regs [(1, 9#8)]) 0x300 [0x71#8, 0x01#8] with pc := 0x300#16, mode := .running .debug } .step
    t.v[1] = 10#8 ∧ t.pc = 0x302#16 ∧ t.mode = .running .debug := by decide

/-! ### Loads, arithmetic, logic, shifts, random (V-ARI) -/

theorem test_ldByte : let t := run (regs []) 0x6A2F; t.v[10] = 0x2F#8 ∧ t.v[15] = 0x55#8 ∧ t.pc = 0x202#16 := by decide

theorem test_addByte : let t := run (regs [(3, 0xFF#8)]) 0x7301; t.v[3] = 0x00#8 ∧ t.v[15] = 0x55#8 := by decide

theorem test_ldReg : let t := run (regs [(1, 7#8)]) 0x8210; t.v[2] = 7#8 ∧ t.v[1] = 7#8 := by decide

theorem test_orReg : let t := run (regs [(0, 0x0F#8), (1, 0xF0#8)]) 0x8011; t.v[0] = 0xFF#8 ∧ t.v[15] = 0x55#8 := by decide

theorem test_andReg : let t := run (regs [(0, 0x3C#8), (1, 0x0F#8)]) 0x8012; t.v[0] = 0x0C#8 ∧ t.v[15] = 0x55#8 := by decide

theorem test_xorReg : let t := run (regs [(0, 0x3C#8), (1, 0x0F#8)]) 0x8013; t.v[0] = 0x33#8 ∧ t.v[15] = 0x55#8 := by decide

theorem test_addReg_carry : let t := run (regs [(0, 200#8), (1, 100#8)]) 0x8014; t.v[0] = 44#8 ∧ t.v[15] = 1#8 := by decide

theorem test_addReg_flag_wins : let t := run (regs [(15, 0x10#8), (1, 0xF5#8)]) 0x8F14; t.v[15] = 1#8 := by decide

theorem test_subReg_borrow : let t := run (regs [(0, 5#8), (1, 10#8)]) 0x8015; t.v[0] = 251#8 ∧ t.v[15] = 0#8 := by decide

theorem test_subReg_equal : let t := run (regs [(0, 7#8), (1, 7#8)]) 0x8015; t.v[0] = 0#8 ∧ t.v[15] = 1#8 := by decide

theorem test_subn_borrow : let t := run (regs [(0, 10#8), (1, 5#8)]) 0x8017; t.v[0] = 251#8 ∧ t.v[15] = 0#8 := by decide

theorem test_subn_no_borrow : let t := run (regs [(0, 5#8), (1, 10#8)]) 0x8017; t.v[0] = 5#8 ∧ t.v[15] = 1#8 := by decide

theorem test_shr_ignores_y : let t := run (regs [(4, 0x05#8), (5, 0xFF#8)]) 0x8456; t.v[4] = 2#8 ∧ t.v[15] = 1#8 := by decide

theorem test_shr_flag_wins : let t := run (regs [(15, 0x02#8)]) 0x8F06; t.v[15] = 0#8 := by decide

theorem test_shl_out : let t := run (regs [(4, 0x81#8)]) 0x840E; t.v[4] = 2#8 ∧ t.v[15] = 1#8 := by decide

theorem test_shl_no_bit_out : let t := run (regs [(4, 0x40#8)]) 0x840E; t.v[4] = 0x80#8 ∧ t.v[15] = 0#8 := by decide

/-- V-ARI-36: with `NN` = 0 every random byte gives 0. -/
theorem test_rnd_mask_zero : (run (regs [(3, 9#8)]) 0xC300).v[3] = 0#8 := BitVec.and_zero

theorem test_rnd_takes_one_free_value : (run State.reset 0xC30F).draws = 1 := by decide

/-! ### Skips (V-SKP) -/

theorem test_seByte :
    (run { regs [(2, 0x10#8)] with pc := 0x204#16 } 0x3210).pc = 0x208#16 ∧
    (run { regs [(2, 0x11#8)] with pc := 0x204#16 } 0x3210).pc = 0x206#16 := by decide

theorem test_sneByte :
    (run { regs [(2, 0x10#8)] with pc := 0x204#16 } 0x4210).pc = 0x206#16 ∧
    (run { regs [(2, 0x11#8)] with pc := 0x204#16 } 0x4210).pc = 0x208#16 := by decide

theorem test_seReg :
    (run { regs [(0, 3#8), (1, 3#8)] with pc := 0x300#16 } 0x5010).pc = 0x304#16 ∧
    (run { regs [(0, 3#8), (1, 4#8)] with pc := 0x300#16 } 0x5010).pc = 0x302#16 := by decide

theorem test_sneReg :
    (run { regs [(0, 3#8), (1, 4#8)] with pc := 0x300#16 } 0x9010).pc = 0x304#16 ∧
    (run { regs [(5, 9#8)] with pc := 0x300#16 } 0x9550).pc = 0x302#16 := by decide

theorem test_skp :
    (run { regs [(1, 5#8)] with pc := 0x220#16, keys := State.reset.keys.set 5 true } 0xE19E).pc = 0x224#16 ∧
    (run { regs [(1, 5#8)] with pc := 0x220#16 } 0xE19E).pc = 0x222#16 := by decide

theorem test_sknp :
    (run { regs [(1, 5#8)] with pc := 0x220#16, keys := State.reset.keys.set 5 true } 0xE1A1).pc = 0x222#16 ∧
    (run { regs [(1, 5#8)] with pc := 0x220#16 } 0xE1A1).pc = 0x224#16 := by decide

theorem test_key_index_above_15 :
    (run (regs [(1, 0x10#8)]) 0xE19E).mode = raised (.invalidKeyIndex 0x10#8) 0x200#16 ∧
    (run (regs [(1, 0x10#8)]) 0xE1A1).mode = raised (.invalidKeyIndex 0x10#8) 0x200#16 := by decide

/-- V-SKP-16. -/
theorem test_skip_past_the_end : (run { regs [(0, 0#8)] with pc := 0x0FFE#16 } 0x3000).pc = 0x1002#16 := by decide

/-! ### Control transfer (V-CTL) -/

theorem test_jp : (run State.reset 0x1FFE).pc = 0xFFE#16 := by decide

theorem test_jp_odd : (run State.reset 0x1203).mode = raised (.misalignedProgramCounter 0x203) 0x200#16 := by decide

theorem test_call :
    let t := run { State.reset with pc := 0x204#16 } 0x2400
    t.stack[0] = 0x206#16 ∧ t.sp = 1 ∧ t.pc = 0x400#16 := by decide

/-- V-CTL-5, V-CTL-6: the target is checked before the stack. -/
theorem test_call_errors :
    (run { State.reset with pc := 0x204#16, sp := 16 } 0x2400).mode = raised (.stackOverflow 0x204#16) 0x204#16 ∧
    (run { State.reset with sp := 16 } 0x2401).mode = raised (.misalignedProgramCounter 0x401) 0x200#16 := by decide

theorem test_ret :
    let t := run { State.reset with pc := 0x400#16, sp := 1, stack := State.reset.stack.set 0 0x206#16 } 0x00EE
    t.pc = 0x206#16 ∧ t.sp = 0 ∧ t.stack[0] = 0x206#16 := by decide

theorem test_ret_empty : (run State.reset 0x00EE).mode = raised (.stackUnderflow 0x200#16) 0x200#16 := by decide

theorem test_jpV0 :
    (run (regs [(0, 0x04#8)]) 0xB300).pc = 0x304#16 ∧ (run (regs [(0, 0xFF#8)]) 0xBFFF).pc = 0x10FE#16 ∧
    (run (regs [(0, 0#8), (3, 0x22#8)]) 0xB300).pc = 0x300#16 := by decide

theorem test_jpV0_odd :
    (run (regs [(0, 0x01#8)]) 0xB300).mode = raised (.misalignedProgramCounter 0x301) 0x200#16 := by decide

theorem test_sys :
    (run State.reset 0x0123).mode = raised (.unknownOpcode 0x0123#16) 0x200#16 ∧
    (run State.reset 0x0000).mode = raised (.unknownOpcode 0x0000#16) 0x200#16 := by decide

/-! ### Keys and timers (V-KT) -/

theorem test_ldKey_blocks :
    let s := { bytes State.reset 0x210 [0xF3#8, 0x0A#8] with pc := 0x210#16 }
    after (step s) s = s := by decide

theorem test_ldKey_lowest :
    let t := run { State.reset with pc := 0x210#16, keys := (State.reset.keys.set 9 true).set 3 true } 0xF00A
    t.v[0] = 3#8 ∧ t.pc = 0x212#16 := by decide

theorem test_ldFromDT : (run { State.reset with dt := 0x3C#8 } 0xF507).v[5] = 0x3C#8 := by decide

theorem test_ldToDT : (run { regs [(1, 0x20#8)] with dt := 7#8 } 0xF115).dt = 0x20#8 := by decide

theorem test_ldToST : let t := run (regs [(2, 2#8)]) 0xF218; t.st = 2#8 ∧ t.dt = 0#8 := by decide

/-! ### Display (V-DRW) -/

theorem test_cls :
    let t := run ((regs []).setDisp (Display.toggle State.reset.disp 63 31)) 0x00E0
    t.disp[63][31] = false ∧ t.v[15] = 0x55#8 := by decide

/-- V-DRW-4: the columns wrap. -/
theorem test_drw_wraps_columns :
    let t := run { bytes (regs [(0, 62#8), (1, 30#8)]) 0x300 [0xFF#8] with i := 0x300#16 } 0xD011
    t.disp[62][30] = true ∧ t.disp[63][30] = true ∧ t.disp[0][30] = true ∧ t.disp[5][30] = true ∧
      t.disp[6][30] = false ∧ t.disp[61][30] = false ∧ t.v[15] = 0#8 := by decide

/-- V-DRW-3, the first draw: one cell turned off is a collision. -/
theorem test_drw_collision :
    let s := (regs [(0, 0#8), (1, 0#8)]).setDisp (Display.toggle State.reset.disp 0 0)
    let t := run { bytes s 0x300 [0xC0#8] with i := 0x300#16 } 0xD011
    t.disp[0][0] = false ∧ t.disp[1][0] = true ∧ t.v[15] = 1#8 := by decide

/-! ### Index register and memory (V-IDX) -/

theorem test_ldI : (run State.reset 0xA2F0).i = 0x2F0#16 := by decide

theorem test_addI_wraps :
    let t := run { regs [(1, 1#8)] with i := 0xFFFF#16 } 0xF11E
    t.i = 0x0000#16 ∧ t.v[15] = 0x55#8 := by decide

theorem test_ldGlyph : (run (regs [(4, 0x0B#8)]) 0xF429).i = 0x037#16 ∧ (run (regs [(4, 0x1A#8)]) 0xF429).i = 0x032#16 := by
  decide

theorem test_ldBcd :
    let t := run { regs [(7, 137#8)] with i := 0x300#16 } 0xF733
    t.mem.read 0x300 = 1#8 ∧ t.mem.read 0x301 = 3#8 ∧ t.mem.read 0x302 = 7#8 ∧ t.i = 0x300#16 := by decide

theorem test_ldBcd_past_the_end :
    (run { regs [] with i := 0x0FFE#16 } 0xF733).mode = raised (.outOfRangeMemoryAccess 0x1000) 0x200#16 := by decide

theorem test_dump :
    let t := run { regs [(0, 1#8), (1, 2#8), (2, 3#8), (3, 4#8)] with i := 0x400#16 } 0xF255
    t.mem.read 0x400 = 1#8 ∧ t.mem.read 0x401 = 2#8 ∧ t.mem.read 0x402 = 3#8 ∧ t.mem.read 0x403 = 0#8 ∧
      t.i = 0x400#16 := by decide

theorem test_dump_past_the_end :
    (run { regs [] with i := 0x0FF1#16 } 0xFF55).mode = raised (.outOfRangeMemoryAccess 0x1000) 0x200#16 := by decide

/-- V-IDX-18: the glyph of 0. -/
theorem test_load_font :
    let t := run { regs [(5, 9#8)] with i := 0x000#16 } 0xF465
    t.v[0] = 0xF0#8 ∧ t.v[1] = 0x90#8 ∧ t.v[4] = 0xF0#8 ∧ t.v[5] = 9#8 ∧ t.i = 0#16 := by decide

theorem test_load_vf :
    (run { bytes (regs []) 0x40F [0x77#8] with i := 0x400#16 } 0xFF65).v[15] = 0x77#8 := by decide

/-! ### Events and boot (V-EVT, V-BOOT) -/

theorem test_tick :
    let t := event { State.reset with dt := 0#8, st := 1#8 } .tick
    t.dt = 0#8 ∧ t.st = 0#8 ∧ t.outbox = [.frame State.reset.disp, .tone true] := by decide

theorem test_key_toggle_quit :
    (event State.reset (.key 12 true)).keys[12] = true ∧ (event State.reset .toggleMode).mode = .running .debug ∧
    (event State.reset .quit).mode = .halted .quit := by decide

theorem test_halted_takes_no_event :
    let s := { State.reset with dt := 5#8, mode := .halted .quit }
    event s .tick = s ∧ event s .toggleMode = s ∧ event s (.key 1 true) = s := by decide

/-- V-BOOT-1, V-BOOT-4. -/
theorem test_boot :
    (boot [] .standard).mode = .halted (.error .emptyProgram none) ∧
    (let s := boot [0x12#8] .debug
     s.mem.read 0x200 = 0x12#8 ∧ s.mem.read 0x201 = 0#8 ∧ s.mode = .running .debug ∧ (event s .step).pc = 0x200#16) := by decide

/-- V-BOOT-5. -/
theorem test_boot_font :
    (List.range 5).map (State.reset.mem.read ·) = [0xF0#8, 0x90#8, 0x90#8, 0x90#8, 0xF0#8] ∧
    (List.range 5).map (State.reset.mem.read <| 0x4B + ·) = [0xF0#8, 0x80#8, 0xF0#8, 0x80#8, 0x80#8] ∧
    State.reset.mem.read 0x50 = 0#8 := by decide

/-! ### Witnesses: the hypotheses of each statement met together, clause by clause, at boundary values -/

/-- The reset state with `I` at `a`. -/
def atI (a : Word) : State := { State.reset with i := a }

theorem witness_DecodeOfEncode : (Instr.drw 15 15 15#4).WellFormed ∧ (Instr.sys 0x0EF#12).WellFormed := by decide

theorem witness_WriteThenRead : State.reset.mem.wf ∧ 0 < 4096 ∧ 4095 < 4096 ∧ 4096 ≤ 4096 := by decide

theorem witness_CanonicalMemories :
    Memory.wf [(0x200, 1#8)] ∧ ∀ a, a < 4096 → Memory.read [(0x200, 1#8)] a = Memory.read [(0x200, 1#8)] a :=
  ⟨by decide, fun _ _ => rfl⟩

theorem witness_PushReturn :
    ({ State.reset with sp := 15 } : State).sp.val < 16 ∧ ({ State.reset with sp := 16 } : State).sp.val = 16 := by decide

theorem witness_PushesThenPops : ({ State.reset with sp := 14 } : State).sp.val + [0x202#16, 0x204#16].length ≤ 16 := by
  decide

/-- The last fetch that fits, in each of the three forms a cycle begins in. -/
theorem witness_StepRunsTheDecodedInstruction :
    let s := { bytes State.reset 0xFFE [0x60#8, 0x2A#8] with pc := 0x0FFE#16 }
    s.pc.toNat + 1 < 4096 ∧
    decodeWord (BitVec.ofNat 16 (256 * (s.mem.read s.pc.toNat).toNat + (s.mem.read (s.pc.toNat + 1)).toNat)) =
      .ok (.ldByte 0 0x2A#8) ∧
    (s.mode = .running .standard ∧ s.events = []) ∧
    (let u := { s with events := [.cycle] }; u.mode = .running .standard ∧ u.events = .cycle :: []) ∧
    (let u := { s with mode := .running .debug, events := [.step] }; u.mode = .running .debug ∧ u.events = .step :: []) := by
  refine ⟨by decide, ?_, ⟨rfl, rfl⟩, ⟨rfl, rfl⟩, rfl, rfl⟩
  rfl

theorem witness_PlacedInstruction : State.reset.mem.wf ∧ (Instr.load 15).WellFormed := by decide

theorem witness_FetchAndDecodeErrors :
    4096 ≤ ({ State.reset with pc := 0x1000#16 } : State).pc.toNat ∧
    ({ State.reset with pc := 0x0FFF#16 } : State).pc.toNat = 4095 ∧
    (let s := { bytes State.reset 0xFFE [0xFF#8, 0xFF#8] with pc := 0x0FFE#16 }
     s.pc.toNat + 1 < 4096 ∧
     0xFFFF#16 = BitVec.ofNat 16 (256 * (s.mem.read s.pc.toNat).toNat + (s.mem.read (s.pc.toNat + 1)).toNat) ∧
     decodeWord 0xFFFF#16 = .error (.unknownOpcode 0xFFFF#16)) := by
  refine ⟨by decide, by decide, by decide, by decide, rfl⟩

theorem witness_KeySkips :
    (regs [(1, 0#8)]).v[1].toNat = (0 : KeyIndex).val ∧ (regs [(1, 15#8)]).v[1].toNat = (15 : KeyIndex).val ∧
    15 < (regs [(1, 16#8)]).v[1].toNat := by decide

theorem witness_Ret :
    ({ State.reset with sp := 1 } : State).sp.val = 0 + 1 ∧ ({ State.reset with sp := 16 } : State).sp.val = 15 + 1 ∧
    State.reset.sp.val = 0 := by decide

theorem witness_Jp : (0xFFE#12).toNat % 2 = 0 ∧ (0xFFF#12).toNat % 2 = 1 := by decide

theorem witness_Call :
    (({ State.reset with sp := 15 } : State).sp.val < 16 ∧ (0xFFE#12).toNat % 2 = 0) ∧ (0xFFF#12).toNat % 2 = 1 ∧
    ((0xFFE#12).toNat % 2 = 0 ∧ ({ State.reset with sp := 16 } : State).sp.val = 16) := by decide

theorem witness_JpV0 :
    ((0xFFF#12).toNat + (regs [(0, 0xFF#8)]).v[0].toNat) % 2 = 0 ∧
    ((0xFFF#12).toNat + (regs [(0, 0xFE#8)]).v[0].toNat) % 2 = 1 := by decide

theorem witness_KeyWait :
    (∀ k : KeyIndex, State.reset.keys[k] = false) ∧
    (let keys := State.reset.keys.set 15 true
     keys[15] = true ∧ ∀ j : KeyIndex, j < 15 → keys[j] = false) := by decide

theorem witness_Drw :
    ((0#4).toNat = 0 ∨ (atI 0xFFFF#16).i.toNat + (0#4).toNat ≤ 4096) ∧
    ((15#4).toNat = 0 ∨ (atI 0x0FF1#16).i.toNat + (15#4).toNat ≤ 4096) ∧
    ((15#4).toNat ≠ 0 ∧ 4096 < (atI 0x0FF2#16).i.toNat + (15#4).toNat) := by decide

theorem witness_DrawingTwice : (List.replicate 15 0xFF#8).length ≤ 15 := by decide

theorem witness_Bcd :
    State.reset.mem.wf ∧ (atI 0x0FFD#16).i.toNat + 2 < 4096 ∧ 4096 ≤ (atI 0x0FFE#16).i.toNat + 2 := by decide

theorem witness_DumpAndLoad :
    State.reset.mem.wf ∧ (atI 0x0FF0#16).i.toNat + (15 : RegIndex).val < 4096 ∧
    4096 ≤ (atI 0x0FF1#16).i.toNat + (15 : RegIndex).val := by decide

theorem witness_OnlyDestinationRegistersChange :
    ∃ t, exec (.ldByte 3 7#8) State.reset = .next t ∧ t.Running ∧ mayWriteV (.ldByte 3 7#8) 4 = false :=
  ⟨_, rfl, ⟨_, rfl⟩, rfl⟩

theorem witness_OnlyBcdAndDumpChangeMemory :
    ∃ t, exec .cls State.reset = .next t ∧ t.Running ∧ (∀ x, Instr.cls ≠ .ldBcd x) ∧ ∀ x, Instr.cls ≠ .dump x :=
  ⟨_, rfl, ⟨_, rfl⟩, nofun, nofun⟩

/-- LD Vx, byte is none of the forms any clause names. -/
theorem witness_SpecialStateChangesOnlyByItsForms :
    ∃ t, exec (.ldByte 3 7#8) State.reset = .next t ∧ t.Running ∧
      (∀ a, Instr.ldByte 3 7#8 ≠ .ldI a) ∧ (∀ x, Instr.ldByte 3 7#8 ≠ .addI x) ∧ (∀ x, Instr.ldByte 3 7#8 ≠ .ldGlyph x) ∧
      (∀ a, Instr.ldByte 3 7#8 ≠ .call a) ∧ Instr.ldByte 3 7#8 ≠ .ret ∧ (∀ x, Instr.ldByte 3 7#8 ≠ .ldToDT x) ∧
      (∀ x, Instr.ldByte 3 7#8 ≠ .ldToST x) ∧ Instr.ldByte 3 7#8 ≠ .cls ∧ ∀ x y n, Instr.ldByte 3 7#8 ≠ .drw x y n :=
  ⟨_, rfl, ⟨_, rfl⟩, nofun, nofun, nofun, nofun, nofun, nofun, nofun, nofun, nofun⟩

theorem witness_NoInstructionReadsTheSoundTimer :
    ∃ t, exec (.ldFromDT 3) State.reset = .next t ∧ t.Running ∧ ∀ x, Instr.ldFromDT 3 ≠ .ldToST x :=
  ⟨_, rfl, ⟨_, rfl⟩, nofun⟩

theorem witness_OnlyKeyFormsReadTheKeys :
    ∃ t, exec (.ldByte 3 7#8) State.reset = .next t ∧ t.Running ∧
      (∀ x, Instr.ldByte 3 7#8 ≠ .skp x) ∧ (∀ x, Instr.ldByte 3 7#8 ≠ .sknp x) ∧ ∀ x, Instr.ldByte 3 7#8 ≠ .ldKey x :=
  ⟨_, rfl, ⟨_, rfl⟩, nofun, nofun, nofun⟩

theorem witness_CycleKeepsTheMode : ∃ t, cycle (bytes State.reset 0x200 [0x60#8, 0x2A#8]) = .next t := ⟨_, rfl⟩

theorem witness_HaltedIsTerminal : ({ State.reset with mode := .halted .quit } : State).mode = .halted .quit := rfl

/-- One state for each line of the table, with the step it takes. -/
theorem witness_LifecycleTransitions :
    (∃ t, step { State.reset with mode := .halted .quit } = .next t) ∧
    (∃ t, step { State.reset with events := [.toggleMode] } = .next t) ∧
    (∃ t, step { State.reset with events := [.quit] } = .next t) ∧
    (∃ t, step { State.reset with events := [.tick] } = .next t) ∧
    (∃ t, step { State.reset with events := [.key 15 true] } = .next t) ∧
    (∃ t, step { State.reset with events := [.cycle] } = .next t) ∧
    (∃ t, step { State.reset with mode := .running .debug, events := [.step] } = .next t) ∧
    ∃ t, step State.reset = .next t :=
  ⟨⟨_, rfl⟩, ⟨_, rfl⟩, ⟨_, rfl⟩, ⟨_, rfl⟩, ⟨_, rfl⟩, ⟨_, rfl⟩, ⟨_, rfl⟩, ⟨_, rfl⟩⟩

/-- Both run modes, for the statements about one event in `Running(m)`. -/
theorem witness_TickAndQuit :
    (let s := { State.reset with dt := 255#8, st := 1#8, events := [.tick] }
     s.mode = .running .standard ∧ s.events = .tick :: []) ∧
    (let s := { State.reset with mode := .running .debug, events := [.tick] }
     s.mode = .running .debug ∧ s.events = .tick :: []) ∧
    (let s := { State.reset with events := [.quit] }
     s.mode = .running .standard ∧ s.events = .quit :: []) :=
  ⟨⟨rfl, rfl⟩, ⟨rfl, rfl⟩, rfl, rfl⟩

/-- Three ticks of a sound timer at 2: the third is the first that is silent. -/
theorem witness_TicksSaturate :
    let s := { State.reset with st := 2#8, events := [.tick, .tick, .tick] }
    s.mode = .running .standard ∧ s.events = List.replicate 3 .tick := ⟨rfl, rfl⟩

theorem witness_KeyEvent :
    (let s := { State.reset with events := [.key 15 true] }
     s.events = .key 15 true :: [] ∧ s.mode = .running .standard) ∧
    (let s := { State.reset with mode := .halted .quit, events := [.key 0 true] }
     s.events = .key 0 true :: [] ∧ s.mode = .halted .quit) := ⟨⟨rfl, rfl⟩, rfl, rfl⟩

theorem witness_ToggleMode :
    (let s := { State.reset with events := [.toggleMode] }
     s.events = .toggleMode :: [] ∧ s.mode = .running .standard) ∧
    (let s := { State.reset with mode := .running .debug, events := [.toggleMode] }
     s.events = .toggleMode :: [] ∧ s.mode = .running .debug) := ⟨⟨rfl, rfl⟩, rfl, rfl⟩

theorem witness_DebugRunsOneCyclePerStep :
    let s := { bytes State.reset 0x200 [0xF3#8, 0x0A#8] with mode := .running .debug }
    (s.mode = .running .debug ∧ s.events = []) ∧
    (let u := { s with events := [.step] }
     u.mode = .running .debug ∧ u.events = .step :: [] ∧ fetchDecode u = .ok (.ldKey 3) ∧
      ∀ k : KeyIndex, u.keys[k] = false) ∧
    (let u := { s with events := [.tick] }; u.mode = .running .debug ∧ u.events = .tick :: []) :=
  ⟨⟨rfl, rfl⟩, ⟨rfl, rfl, rfl, by decide⟩, rfl, rfl⟩

theorem witness_EventsOfTheOtherMode :
    (let s := { State.reset with events := [.step] }; s.mode = .running .standard ∧ s.events = .step :: []) ∧
    (let s := { State.reset with mode := .running .debug, events := [.cycle] }
     s.mode = .running .debug ∧ s.events = .cycle :: []) := ⟨⟨rfl, rfl⟩, rfl, rfl⟩

theorem witness_BootLoadsTheImage :
    (1 ≤ [0x12#8].length ∧ [0x12#8].length ≤ 3584) ∧
    (1 ≤ (List.replicate 3584 0x12#8).length ∧ (List.replicate 3584 0x12#8).length ≤ 3584) := by
  simp only [List.length_replicate]; decide

theorem witness_BootRefuses : ([] : List Byte).length = 0 ∧ 3584 < (List.replicate 3585 0x12#8).length := by
  simp only [List.length_replicate]; decide

/-- The invariant at the bound of `pc`, with an occupied slot at its bound, and a step from there. -/
theorem witness_EveryStepKeepsTheInvariant :
    let s := { State.reset with pc := 0x10FE#16, sp := 1, stack := State.reset.stack.set 0 0x1000#16, events := [.tick] }
    s.Inv ∧ ∃ t, step s = .next t :=
  ⟨⟨by decide, fun _ => by decide, fun _ => by decide, fun _ => by decide⟩, _, rfl⟩

end Sys2Proof.Tests
end

section
/-! The call stack (10_state.md): the two statements about R24 to R26. -/

namespace Sys2Proof.Machine

section StackRules

variable {s t u : State}

/-! ### Runs of pushes and pops, one at a time -/

theorem pushAll_cons_of_ok {a : Word} (h : pushReturn s a = .ok t) (as : List Word) :
    pushAll s (a :: as) = pushAll t as := by
  simp [pushAll, h]

/-- The pops succeed exactly when the first one and those after it do. -/
theorem popMany_succ_ok_iff {n : Nat} {as : List Word} :
    popMany s (n + 1) = .ok (as, u) ↔
      ∃ a t bs, popReturn s = .ok (a, t) ∧ popMany t n = .ok (bs, u) ∧ as = a :: bs := by
  constructor
  · intro h
    simp only [popMany] at h
    split at h
    next => cases h
    next a t hpop =>
      split at h
      next => cases h
      next bs _ hrest =>
        cases h
        exact ⟨a, t, bs, hpop, hrest, rfl⟩
  · rintro ⟨a, t, bs, hpop, hrest, rfl⟩
    simp [popMany, hpop, hrest]

/-- One more pop after `n` of them gives its value last: `popMany` peels the first pop, LIFO needs the last. -/
theorem popMany_succ_of_popMany_of_popReturn {n : Nat} {as : List Word} {a : Word}
    (hmany : popMany s n = .ok (as, t)) (hpop : popReturn t = .ok (a, u)) :
    popMany s (n + 1) = .ok (as ++ [a], u) := by
  induction n generalizing s as with
  | zero =>
    cases hmany
    exact popMany_succ_ok_iff.2 ⟨a, u, [], hpop, rfl, rfl⟩
  | succ n ih =>
    obtain ⟨b, s', bs, hfirst, hrest, rfl⟩ := popMany_succ_ok_iff.1 hmany
    exact popMany_succ_ok_iff.2 ⟨b, s', bs ++ [a], hfirst, ih hrest, rfl⟩

/-- What a push with a free slot does to the stack (R24): it fills slot `SP` and keeps the occupied ones. -/
theorem pushReturn_ok_of_lt (a : Word) (h : s.sp.val < 16) :
    ∃ t, pushReturn s a = .ok t ∧ t.sp.val = s.sp.val + 1 ∧ t.stack[s.sp.val] = a ∧
      ∀ k : Fin 16, k.val < s.sp.val → t.stack[k] = s.stack[k] := by
  refine ⟨_, pushReturn_of_lt a h, rfl, by simp, fun k hk => ?_⟩
  simp [Nat.ne_of_gt hk]

/-- A pop gives the value in the slot below `SP` and changes nothing but `SP` (R25). -/
theorem popReturn_of_sp_eq_succ (k : Fin 16) (h : t.sp.val = k.val + 1) :
    popReturn t = .ok (t.stack[k], { t with sp := k.castSucc }) := by
  have hk : t.sp.val - 1 = k.val := by omega
  rw [popReturn_of_pos (by omega)]
  simp only [hk]
  rfl

end StackRules

/-! ### The statements -/

/-- Settles O8: the two branches of a push. -/
theorem pushReturnStoresOrOverflows : Obligations.PushReturnStoresOrOverflows := by
  intro s a
  exact ⟨pushReturn_of_lt a, pushReturn_full a⟩

/-- Settles O9, by induction on the addresses: those after the first are pushed and popped above its slot, which they
leave as it is, so that the last pop gives the first address. -/
theorem pushesThenPopsAreLifo : Obligations.PushesThenPopsAreLifo := by
  intro s as hfit
  induction as generalizing s with
  | nil => exact ⟨s, s, rfl, rfl, rfl, rfl, fun _ _ => rfl⟩
  | cons a as ih =>
    rw [List.length_cons] at hfit ⊢
    have hroom : s.sp.val < 16 := by omega
    obtain ⟨s', hpush, hsp', htop, hbelow⟩ := pushReturn_ok_of_lt a hroom
    obtain ⟨t, u, hpushes, hspt, hpops, hspu, hkept⟩ := ih s' (by omega)
    have hvalue : u.stack[s.sp.val] = a := (hkept ⟨s.sp.val, hroom⟩ (by simp [hsp'])).trans htop
    have hlast := popReturn_of_sp_eq_succ (t := u) ⟨s.sp.val, hroom⟩ (by simp [hspu, hsp'])
    refine ⟨t, { u with sp := s.sp }, (pushAll_cons_of_ok hpush as).trans hpushes, by omega, ?_, rfl, fun k hk => ?_⟩
    · rw [popMany_succ_of_popMany_of_popReturn hpops hlast, List.reverse_cons]
      simp [hvalue]
    · exact (hkept k (by omega)).trans (hbelow k hk)

end Sys2Proof.Machine
end

section
/-! Memory (20_memory.md): the statement about R39. -/

namespace Sys2Proof.Machine

/-- Settles O5: an address is at or above 4096, where the read raises, or below it, where the read gives the byte. -/
theorem memReadIsBoundsChecked : Obligations.MemReadIsBoundsChecked := by
  intro s addr
  split
  next hout => exact memRead_of_ge hout
  next hin => exact memRead_of_lt (Nat.lt_of_not_le hin)

end Sys2Proof.Machine
end

section
/-! The execution cycle (40_execution_cycle.md): the two statements that an instruction reads neither `ST` (R27) nor, but
for three forms, the key state (R29). Both follow from one: replacing `ST` and the keys before an instruction, or after it,
is the same. -/

namespace Sys2Proof.Machine

/-! ### Replacing `ST` and the key state -/

/-- The state with `ST` and the key state replaced, each by a function of what it holds (`id` leaves it). -/
def State.mapSTKeys (g : Byte → Byte) (h : Vector Bool 16 → Vector Bool 16) (s : State) : State :=
  { s with st := g s.st, keys := h s.keys }

/-- The outcome with the state it carries, if it carries one, changed by `f`. -/
def CycleOutcome.map (f : State → State) : CycleOutcome → CycleOutcome
  | .next s => .next (f s)
  | .jumped s => .jumped (f s)
  | .blocked => .blocked
  | .fault e => .fault e

/-- Where the instruction `e` completes, it completes from the state changed by `f` as well, with the result changed by
`f`. Nothing is said of a fatal error, which leaves no component specified (R68). -/
def CompletesUnder (f : State → State) (e : State → Host.Outcome State Fault Refusal) : Prop :=
  ∀ s t, e s = .next t → t.Running → e (f s) = .next (f t)

/-- An instruction that does not branch completes under `f` if the update it makes commutes with `f`. -/
theorem completesUnder_of_next {f φ : State → State} {e : State → Host.Outcome State Fault Refusal}
    (he : ∀ s, e s = .next (φ s)) (hφ : ∀ s, φ (f s) = f (φ s)) : CompletesUnder f e := by
  intro s t hexec _
  rw [he] at hexec ⊢
  cases hexec
  rw [hφ]

section ReplacingRules

variable {g : Byte → Byte} {h : Vector Bool 16 → Vector Bool 16}

/-- An instruction completes under the replacement if what it does before the cycle's end commutes with it: advancing `pc`
(R66) does, since it reads and writes `pc` alone. -/
theorem completesUnder_of_endCycle {e : State → Host.Outcome State Fault Refusal} {body : State → CycleOutcome}
    (he : ∀ s, e s = endCycle s (body s))
    (hbody : ∀ s, body (s.mapSTKeys g h) = (body s).map (State.mapSTKeys g h)) :
    CompletesUnder (State.mapSTKeys g h) e := by
  intro s t hexec hrun
  rw [he] at hexec ⊢
  rw [hbody]
  obtain ⟨u, hnext, rfl⟩ | hjumped | ⟨hblocked, rfl⟩ := endCycle_running hexec hrun
  · rw [hnext]; rfl
  · rw [hjumped]; rfl
  · rw [hblocked]; rfl

/-- A value that may be an error, then a continuation: the two commute with `f` if each does. -/
theorem orRaise_map {α : Type} {f : State → State} {φ : α → α} {r r' : Except Fault α} {k k' : α → CycleOutcome}
    (hr : r' = r.map φ) (hk : ∀ a, k' (φ a) = (k a).map f) : orRaise r' k' = (orRaise r k).map f := by
  subst hr
  cases r with
  | ok a => exact hk a
  | error e => rfl

/-- `orRaise_map` for a value that is the same before and after `f`. -/
theorem orRaise_map_of_eq {α : Type} {f : State → State} {r r' : Except Fault α} {k k' : α → CycleOutcome}
    (hr : r' = r) (hk : ∀ a, k' a = (k a).map f) : orRaise r' k' = (orRaise r k).map f :=
  orRaise_map (hr.trans (congrFun Except.map_id.symm r)) hk

theorem skipIf_mapSTKeys (cond : Bool) (s : State) :
    skipIf cond (s.mapSTKeys g h) = (skipIf cond s).map (State.mapSTKeys g h) := by
  cases cond <;> rfl

theorem firstPressed_mapSTKeys (s : State) : firstPressed (s.mapSTKeys g id) = firstPressed s := rfl

theorem readBytes_mapSTKeys (s : State) (addr n : Nat) : readBytes (s.mapSTKeys g h) addr n = readBytes s addr n :=
  readBytes_of_mem (s := s) (u := s.mapSTKeys g h) rfl addr n

theorem writeBytes_mapSTKeys (s : State) (addr : Nat) (bs : List Byte) :
    writeBytes (s.mapSTKeys g h) addr bs = (writeBytes s addr bs).map (State.mapSTKeys g h) := by
  by_cases hfit : bs = [] ∨ addr + bs.length ≤ 4096
  · rw [writeBytes_fits hfit, writeBytes_fits hfit]; rfl
  · push Not at hfit
    obtain ⟨hne, hover⟩ := hfit
    rw [writeBytes_overruns hne hover, writeBytes_overruns hne hover]; rfl

theorem pushReturn_mapSTKeys (s : State) (a : Word) :
    pushReturn (s.mapSTKeys g h) a = (pushReturn s a).map (State.mapSTKeys g h) := by
  by_cases hroom : s.sp.val < 16
  · rw [pushReturn_of_lt a hroom]; exact pushReturn_of_lt (s := s.mapSTKeys g h) a hroom
  · have hfull : s.sp.val = 16 := by omega
    rw [pushReturn_full a hfull]; exact pushReturn_full (s := s.mapSTKeys g h) a hfull

theorem popReturn_mapSTKeys (s : State) :
    popReturn (s.mapSTKeys g h) = (popReturn s).map (Prod.map id (State.mapSTKeys g h)) := by
  by_cases hpos : 0 < s.sp.val
  · rw [popReturn_of_pos hpos]; exact popReturn_of_pos (s := s.mapSTKeys g h) hpos
  · have hempty : s.sp.val = 0 := by omega
    rw [popReturn_empty hempty]; exact popReturn_empty (s := s.mapSTKeys g h) hempty

/-! ### Every instruction -/

/-- What O43 and O44 share: every instruction completes under the replacement, but that it must leave `ST` as it is for
FX18, which overwrites it, and the keys for the three forms that read them (R27, R29). -/
theorem exec_completesUnder_mapSTKeys (i : Instr) (hst : g = id ∨ ∀ x, i ≠ .ldToST x)
    (hkeys : h = id ∨ (∀ x, i ≠ .skp x) ∧ (∀ x, i ≠ .sknp x) ∧ ∀ x, i ≠ .ldKey x) :
    CompletesUnder (State.mapSTKeys g h) (exec i) := by
  cases i
  case ldToST x =>
    obtain rfl : g = id := hst.resolve_right fun hne => hne x rfl
    exact completesUnder_of_next (fun _ => rfl) fun _ => rfl
  case skp x =>
    obtain rfl : h = id := hkeys.resolve_right fun ⟨hskp, _, _⟩ => hskp x rfl
    exact completesUnder_of_endCycle (fun _ => rfl) fun s =>
      orRaise_map_of_eq rfl fun k => skipIf_mapSTKeys (isPressed s k) s
  case sknp x =>
    obtain rfl : h = id := hkeys.resolve_right fun ⟨_, hsknp, _⟩ => hsknp x rfl
    exact completesUnder_of_endCycle (fun _ => rfl) fun s =>
      orRaise_map_of_eq rfl fun k => skipIf_mapSTKeys (!isPressed s k) s
  case ldKey x =>
    obtain rfl : h = id := hkeys.resolve_right fun ⟨_, _, hldKey⟩ => hldKey x rfl
    refine completesUnder_of_endCycle (fun _ => rfl) fun s => ?_
    rw [firstPressed_mapSTKeys]
    cases firstPressed s <;> rfl
  case sys nnn =>
    exact completesUnder_of_endCycle (body := fun _ => .fault (.unknownOpcode (nnn.zeroExtend 16)))
      (fun _ => rfl) fun _ => rfl
  case seByte | sneByte | seReg | sneReg =>
    exact completesUnder_of_endCycle (fun _ => rfl) fun s => skipIf_mapSTKeys _ s
  case ret =>
    exact completesUnder_of_endCycle (fun _ => rfl) fun s =>
      orRaise_map (popReturn_mapSTKeys s) fun _ => rfl
  case jp | jpV0 =>
    exact completesUnder_of_endCycle (fun _ => rfl) fun _ =>
      orRaise_map_of_eq rfl fun _ => rfl
  case call =>
    exact completesUnder_of_endCycle (fun _ => rfl) fun s => orRaise_map_of_eq rfl fun _ =>
      orRaise_map (pushReturn_mapSTKeys s _) fun _ => rfl
  case drw | load =>
    exact completesUnder_of_endCycle (fun _ => rfl) fun s =>
      orRaise_map_of_eq (readBytes_mapSTKeys s _ _) fun _ => rfl
  case ldBcd | dump =>
    exact completesUnder_of_endCycle (fun _ => rfl) fun s =>
      orRaise_map (writeBytes_mapSTKeys s _ _) fun _ => rfl
  -- The others do not branch: the update they make touches neither component.
  all_goals exact completesUnder_of_next (fun _ => rfl) fun _ => rfl

end ReplacingRules

/-! ### The statements -/

/-- Settles O43: `ST` is replaced, the keys are left. -/
theorem noInstructionReadsTheSoundTimer : Obligations.NoInstructionReadsTheSoundTimer := by
  intro i s t b hexec hrun hst
  exact exec_completesUnder_mapSTKeys (g := fun _ => b) (h := id) i (.inr hst) (.inl rfl) s t hexec hrun

/-- Settles O44: the keys are replaced, `ST` is left. -/
theorem onlyKeyFormsReadTheKeys : Obligations.OnlyKeyFormsReadTheKeys := by
  intro i s t k hexec hrun hskp hsknp hldKey
  exact exec_completesUnder_mapSTKeys (g := id) (h := fun _ => k) i (.inl rfl) (.inr ⟨hskp, hsknp, hldKey⟩)
    s t hexec hrun

end Sys2Proof.Machine
end

section
/-! Events and run modes (60_exceptions.md): the statement about `ToggleMode` (R124). -/

namespace Sys2Proof.Machine

/-- In a run mode the step of a waiting event is that event's row of R131, on the state without the event. -/
theorem step_event_of_running {s : State} {m : RunMode} {e : Event} {rest : List Event}
    (he : s.events = e :: rest) (hm : s.mode = .running m) :
    step s = eventRunning m e { s with events := rest } :=
  (step_event he).trans (takeEvent_running e hm)

/-- Settles O51: in each run mode the step is R131's row for `ToggleMode`, and `otherMode` names the other one. -/
theorem toggleModeChangesOnlyTheRunMode : Obligations.ToggleModeChangesOnlyTheRunMode := by
  intro s rest he
  constructor
  · intro hstandard
    exact step_event_of_running he hstandard
  · intro hdebug
    exact step_event_of_running he hdebug

end Sys2Proof.Machine
end

section
/-! Encoding (30_encoding.md): the statements about R53 to R58. -/

namespace Sys2Proof

/-! ### Fields (R53) as numbers -/

@[simp] theorem fieldC_toNat (op : Word) : (fieldC op).toNat = op.toNat / 4096 := by
  have := op.isLt
  rw [fieldC, BitVec.extractLsb'_toNat, Nat.shiftRight_eq_div_pow]
  omega

@[simp] theorem fieldN_toNat (op : Word) : (fieldN op).toNat = op.toNat % 16 := by
  rw [fieldN, BitVec.extractLsb'_toNat, Nat.shiftRight_zero]

@[simp] theorem fieldNN_toNat (op : Word) : (fieldNN op).toNat = op.toNat % 256 := by
  rw [fieldNN, BitVec.extractLsb'_toNat, Nat.shiftRight_zero]

/-! ### Decoding what was encoded -/

theorem Instr.wellFormed_sys {nnn : Addr12} : (Instr.sys nnn).WellFormed ↔ nnn ≠ 0x0E0#12 ∧ nnn ≠ 0x0EE#12 := by
  simp [Instr.WellFormed, Instr.wellFormed]

/-- The words of class 0 differ exactly where their `NNN` differ, which makes R57 a condition on `NNN`. -/
theorem encodeNNN_inj {c : Nibble} {a b : Addr12} : encodeNNN c a = encodeNNN c b ↔ a = b :=
  ⟨fun h => by simpa using congrArg fieldNNN h, congrArg _⟩

/-- In class 0 a well-formed SYS is neither of the two words tested first (R57). -/
theorem decodeClass0_encodeNNN {nnn : Addr12} (h : (Instr.sys nnn).WellFormed) :
    decodeClass0 (encodeNNN 0x0#4 nnn) = .sys nnn := by
  obtain ⟨hcls, hret⟩ := Instr.wellFormed_sys.1 h
  have hcls' : encodeNNN 0x0#4 nnn ≠ 0x00E0#16 := mt (encodeNNN_inj (b := 0x0E0#12)).1 hcls
  have hret' : encodeNNN 0x0#4 nnn ≠ 0x00EE#16 := mt (encodeNNN_inj (b := 0x0EE#12)).1 hret
  rw [decodeClass0, if_neg hcls', if_neg hret', fieldNNN_encodeNNN]

/-- Settles O2: the class nibble selects a row or a group of rows, the low nibble or the low byte the row in its group, and
the operands are the fields. Only SYS needs to be well-formed. -/
theorem decodeOfEncodeIsTheInstruction : Obligations.DecodeOfEncodeIsTheInstruction := by
  intro i hwf
  cases i
  case cls | ret => rfl
  case sys => simp [encode, decodeWord, decodeClass0_encodeNNN hwf]
  case seReg | sneReg => simp [encode, decodeWord, decodeXY0]
  case ldReg | orReg | andReg | xorReg | addReg | subReg | shr | subn | shl =>
    simp [encode, decodeWord, decodeClass8]
  case skp | sknp => simp [encode, decodeWord, decodeClassE]
  case ldFromDT | ldKey | ldToDT | ldToST | addI | ldGlyph | ldBcd | dump | load =>
    simp [encode, decodeWord, decodeClassF]
  -- The rows that have their class to themselves.
  all_goals simp [encode, decodeWord]

/-! ### The unknown opcodes (R58), class by class -/

section UnknownOpcodes

variable {op : Word}

theorem decodeWord_of_class5 (h : op.toNat / 4096 = 0x5) :
    decodeWord op = decodeXY0 op (.seReg (fieldX op) (fieldY op)) := by
  simp [decodeWord, h]

theorem decodeWord_of_class8 (h : op.toNat / 4096 = 0x8) : decodeWord op = decodeClass8 op := by
  simp [decodeWord, h]

theorem decodeWord_of_class9 (h : op.toNat / 4096 = 0x9) :
    decodeWord op = decodeXY0 op (.sneReg (fieldX op) (fieldY op)) := by
  simp [decodeWord, h]

theorem decodeWord_of_classE (h : op.toNat / 4096 = 0xE) : decodeWord op = decodeClassE op := by
  simp [decodeWord, h]

theorem decodeWord_of_classF (h : op.toNat / 4096 = 0xF) : decodeWord op = decodeClassF op := by
  simp [decodeWord, h]

/-- The other eleven classes have no unknown opcode. -/
theorem decodeWord_ok_of_class (h : op.toNat / 4096 ∉ [0x5, 0x8, 0x9, 0xE, 0xF]) : ∃ i, decodeWord op = .ok i := by
  have hlt : op.toNat / 4096 < 16 := by omega
  unfold decodeWord
  rw [fieldC_toNat]
  generalize op.toNat / 4096 = c at h hlt
  interval_cases c <;> simp at h ⊢

theorem decodeXY0_eq_unknown_iff (form : Instr) :
    decodeXY0 op form = .error (.unknownOpcode op) ↔ op.toNat % 16 ≠ 0 := by
  simp [decodeXY0, ← BitVec.toNat_inj]

theorem decodeClass8_eq_unknown_iff :
    decodeClass8 op = .error (.unknownOpcode op) ↔ op.toNat % 16 ∈ [0x8, 0x9, 0xA, 0xB, 0xC, 0xD, 0xF] := by
  unfold decodeClass8
  split <;> simp_all
  omega

theorem decodeClassE_eq_unknown_iff :
    decodeClassE op = .error (.unknownOpcode op) ↔ op.toNat % 256 ∉ [0x9E, 0xA1] := by
  unfold decodeClassE
  split <;> simp_all

theorem decodeClassF_eq_unknown_iff :
    decodeClassF op = .error (.unknownOpcode op) ↔
      op.toNat % 256 ∉ [0x07, 0x0A, 0x15, 0x18, 0x1E, 0x29, 0x33, 0x55, 0x65] := by
  unfold decodeClassF
  split <;> simp_all

end UnknownOpcodes

/-- Settles O4: R58 looks at the low nibble of classes 5, 8 and 9 and at the low byte of classes E and F, and no opcode of
another class is unknown. -/
theorem unknownOpcodesAreExactlyTheTable : Obligations.UnknownOpcodesAreExactlyTheTable := by
  intro op
  by_cases h5 : op.toNat / 4096 = 0x5
  · rw [decodeWord_of_class5 h5, decodeXY0_eq_unknown_iff]; simp [h5]
  by_cases h8 : op.toNat / 4096 = 0x8
  · rw [decodeWord_of_class8 h8, decodeClass8_eq_unknown_iff]; simp [h8]
  by_cases h9 : op.toNat / 4096 = 0x9
  · rw [decodeWord_of_class9 h9, decodeXY0_eq_unknown_iff]; simp [h9]
  by_cases hE : op.toNat / 4096 = 0xE
  · rw [decodeWord_of_classE hE, decodeClassE_eq_unknown_iff]; simp [hE]
  by_cases hF : op.toNat / 4096 = 0xF
  · rw [decodeWord_of_classF hF, decodeClassF_eq_unknown_iff]; simp [hF]
  obtain ⟨i, hi⟩ := decodeWord_ok_of_class (op := op) (by simp [h5, h8, h9, hE, hF])
  simp [hi, h5, h8, h9, hE, hF]

/-! ### The opcode map (R56) -/

section OpcodeMap

variable {op v : Word}

/-- A row `cNNN` or `cXNN` asks for its class nibble alone (R56). -/
theorem and_F000_eq_iff (hv : v = encodeNNN (fieldC v) 0#12) :
    op &&& (0xF000 : Word) = v ↔ op.toNat / 4096 = v.toNat / 4096 := by
  have hop : op &&& 0xF000#16 = encodeNNN (fieldC op) 0#12 := by
    rw [← Laws.FixedBits.nnn_bits _ (fieldNNN op), ← eq_encodeNNN]
  rw [← fieldC_toNat, ← fieldC_toNat, BitVec.toNat_inj]
  constructor
  · intro h
    simpa using congrArg fieldC (hop.symm.trans h)
  · intro h
    exact hop.trans (by rw [h, ← hv])

/-- A row `cXYn` with a fixed `n` asks for its class nibble and its low nibble. -/
theorem and_F00F_eq_iff (hv : v = encodeXYN (fieldC v) 0 0 (fieldN v)) :
    op &&& (0xF00F : Word) = v ↔ op.toNat / 4096 = v.toNat / 4096 ∧ op.toNat % 16 = v.toNat % 16 := by
  have hop : op &&& 0xF00F#16 = encodeXYN (fieldC op) 0 0 (fieldN op) := by
    rw [← (Laws.FixedBits.xyn_bits _ (fieldX op) (fieldY op) _).2, ← eq_encodeXYN]
  rw [← fieldC_toNat, ← fieldC_toNat, BitVec.toNat_inj, ← fieldN_toNat, ← fieldN_toNat, BitVec.toNat_inj]
  constructor
  · intro h
    have h' := hop.symm.trans h
    exact ⟨by simpa using congrArg fieldC h', by simpa using congrArg fieldN h'⟩
  · rintro ⟨hc, hn⟩
    exact hop.trans (by rw [hc, hn, ← hv])

/-- A row `cXnn` with a fixed `nn` asks for its class nibble and its low byte. -/
theorem and_F0FF_eq_iff (hv : v = encodeXNN (fieldC v) 0 (fieldNN v)) :
    op &&& (0xF0FF : Word) = v ↔ op.toNat / 4096 = v.toNat / 4096 ∧ op.toNat % 256 = v.toNat % 256 := by
  have hop : op &&& 0xF0FF#16 = encodeXNN (fieldC op) 0 (fieldNN op) := by
    rw [← (Laws.FixedBits.xnn_bits _ (fieldX op) _).2, ← eq_encodeXNN]
  rw [← fieldC_toNat, ← fieldC_toNat, BitVec.toNat_inj, ← fieldNN_toNat, ← fieldNN_toNat, BitVec.toNat_inj]
  constructor
  · intro h
    have h' := hop.symm.trans h
    exact ⟨by simpa using congrArg fieldC h', by simpa using congrArg fieldNN h'⟩
  · rintro ⟨hc, hn⟩
    exact hop.trans (by rw [hc, hn, ← hv])

theorem and_FFFF (op : Word) : op &&& (0xFFFF : Word) = op := BitVec.and_allOnes

/-- No row matches an opcode of R58's table. -/
theorem rowOfWord_of_unknown (h : decodeWord op = .error (.unknownOpcode op)) : rowOfWord op = none := by
  have htable := (unknownOpcodesAreExactlyTheTable op).1 h
  have hnone : ∀ r ∈ opcodeMap, op &&& r.mask ≠ r.value := by
    simp (disch := decide) only [opcodeMap, List.cons_append, List.nil_append, List.forall_mem_cons,
      and_F000_eq_iff, and_F00F_eq_iff, and_F0FF_eq_iff, and_FFFF, ne_eq]
    simp [← BitVec.toNat_inj] at htable ⊢
    and_intros <;> omega
  simpa [rowOfWord, List.findIdx?_eq_none_iff] using hnone

/-- Row `j` of the opcode map, counted from 0. -/
def mapRow (j : Nat) : OpcodeRow := opcodeMap.getD j ⟨0, 0⟩

/-- The first row that matches is found. -/
theorem rowOfWord_of_first {k : Nat} (hk : k < 35) (hmatch : op &&& (mapRow k).mask = (mapRow k).value)
    (hearlier : ∀ j < k, op &&& (mapRow j).mask ≠ (mapRow j).value) : rowOfWord op = some (k + 1) := by
  have hk' : k < opcodeMap.length := hk
  have hrow (j : Nat) (hj : j < opcodeMap.length) : opcodeMap[j] = mapRow j := (List.getElem_eq_getD _)
  have hfind : opcodeMap.findIdx? (fun r => op &&& r.mask == r.value) = some k :=
    List.findIdx?_eq_some_iff_getElem.2 ⟨hk', by simpa [hrow] using hmatch, fun j hj => by
      simpa [hrow] using hearlier j hj⟩
  rw [rowOfWord, hfind]
  rfl

/-- A row from the fourth on has no opcode in common with a row before it: the two ask for different values of a bit that
both masks hold. -/
theorem mapRow_disagree : ∀ k < 35, 3 ≤ k → ∀ j < k,
    (mapRow j).value &&& (mapRow k).mask ≠ (mapRow k).value &&& (mapRow j).mask := by
  decide

/-- Every instruction's opcode matches the instruction's own row (R56). -/
theorem encode_matches_row (i : Instr) : Laws.FixedBits.Statement i := by
  open Laws.FixedBits in
  cases i
  exacts [cls, ret, sys _, jp _, call _, seByte _ _, sneByte _ _, seReg _ _, ldByte _ _, addByte _ _, ldReg _ _,
    orReg _ _, andReg _ _, xorReg _ _, addReg _ _, subReg _ _, shr _ _, subn _ _, shl _ _, sneReg _ _, ldI _, jpV0 _,
    rnd _ _, drw _ _ _, skp _, sknp _, ldFromDT _, ldKey _, ldToDT _, ldToST _, addI _, ldGlyph _, ldBcd _, dump _,
    load _]

/-- From the fourth row on an instruction's opcode matches no row before its own. -/
theorem rowOfWord_encode_of_row {i : Instr} {k : Nat} (hrow : i.row = k + 1) (hk : k < 35) (hk3 : 3 ≤ k) :
    rowOfWord (encode i) = some i.row := by
  have hmatch : encode i &&& (mapRow k).mask = (mapRow k).value := by
    have := encode_matches_row i
    rwa [Laws.FixedBits.Statement, Laws.FixedBits.rowOf, hrow] at this
  rw [hrow]
  refine rowOfWord_of_first hk hmatch fun j hj hj' => mapRow_disagree k hk hk3 j hj ?_
  rw [← hmatch, ← hj', BitVec.and_assoc, BitVec.and_assoc, BitVec.and_comm (mapRow j).mask]

/-- The first row an instruction's opcode matches is its own; for SYS this is R57. -/
theorem rowOfWord_encode {i : Instr} (hwf : i.WellFormed) : rowOfWord (encode i) = some i.row := by
  cases i
  case cls | ret => decide
  case sys nnn =>
    obtain ⟨hcls, hret⟩ := Instr.wellFormed_sys.1 hwf
    refine rowOfWord_of_first (k := 2) (by decide) (Laws.FixedBits.sys nnn) fun j hj => ?_
    interval_cases j
    · exact fun h => hcls (encodeNNN_inj.1 ((and_FFFF _).symm.trans h))
    · exact fun h => hret (encodeNNN_inj.1 ((and_FFFF _).symm.trans h))
  all_goals exact rowOfWord_encode_of_row rfl (by decide) (by decide)

end OpcodeMap

/-! ### Encoding what was decoded -/

section Decoded

variable {op : Word}

theorem encodeNNN_of_class {c : Nibble} (hc : (fieldC op).toNat = c.toNat) : encodeNNN c (fieldNNN op) = op := by
  rw [← BitVec.eq_of_toNat_eq hc, ← eq_encodeNNN]

theorem encodeXNN_of_class {c : Nibble} (hc : (fieldC op).toNat = c.toNat) :
    encodeXNN c (fieldX op) (fieldNN op) = op := by
  rw [← BitVec.eq_of_toNat_eq hc, ← eq_encodeXNN]

theorem encodeXYN_of_class {c : Nibble} (hc : (fieldC op).toNat = c.toNat) :
    encodeXYN c (fieldX op) (fieldY op) (fieldN op) = op := by
  rw [← BitVec.eq_of_toNat_eq hc, ← eq_encodeXYN]

/-- What the opcode map asks of a decoding (R56): a form is well formed and has the opcode for its encoding, and
a rejection names the opcode. -/
def Represents (d : Except DecodeReject Instr) (op : Word) : Prop :=
  match d with
  | .ok i => encode i = op ∧ i.WellFormed
  | .error r => r = .unknownOpcode op

theorem decodeClass0_represents (hc : (fieldC op).toNat = 0x0) : Represents (.ok (decodeClass0 op)) op := by
  unfold decodeClass0
  split
  next h => exact ⟨h.symm, rfl⟩
  split
  next h => exact ⟨h.symm, rfl⟩
  next hcls hret =>
    have hop : encodeNNN 0x0#4 (fieldNNN op) = op := encodeNNN_of_class hc
    refine ⟨hop, Instr.wellFormed_sys.2 ⟨?_, ?_⟩⟩
    · intro h; rw [h] at hop; exact hcls hop.symm
    · intro h; rw [h] at hop; exact hret hop.symm

theorem decodeXY0_represents {form : Instr} (hform : fieldN op = 0x0#4 → encode form = op) (hwf : form.WellFormed) :
    Represents (decodeXY0 op form) op := by
  unfold decodeXY0
  split
  next h => exact ⟨hform h, hwf⟩
  next => rfl

theorem decodeClass8_represents (hc : (fieldC op).toNat = 0x8) : Represents (decodeClass8 op) op := by
  have hop {n : Nibble} (hn : (fieldN op).toNat = n.toNat) : encodeXYN 0x8#4 (fieldX op) (fieldY op) n = op := by
    rw [← BitVec.eq_of_toNat_eq hn, encodeXYN_of_class hc]
  unfold decodeClass8
  split
  case h_10 => rfl
  all_goals exact ⟨hop ‹_›, rfl⟩

theorem decodeClassE_represents (hc : (fieldC op).toNat = 0xE) : Represents (decodeClassE op) op := by
  have hop {nn : Byte} (hn : (fieldNN op).toNat = nn.toNat) : encodeXNN 0xE#4 (fieldX op) nn = op := by
    rw [← BitVec.eq_of_toNat_eq hn, encodeXNN_of_class hc]
  unfold decodeClassE
  split
  case h_3 => rfl
  all_goals exact ⟨hop ‹_›, rfl⟩

theorem decodeClassF_represents (hc : (fieldC op).toNat = 0xF) : Represents (decodeClassF op) op := by
  have hop {nn : Byte} (hn : (fieldNN op).toNat = nn.toNat) : encodeXNN 0xF#4 (fieldX op) nn = op := by
    rw [← BitVec.eq_of_toNat_eq hn, encodeXNN_of_class hc]
  unfold decodeClassF
  split
  case h_10 => rfl
  all_goals exact ⟨hop ‹_›, rfl⟩

/-- Every decoding represents its opcode. The arms of `decodeWord` stand in the order of the classes. -/
theorem decodeWord_represents (op : Word) : Represents (decodeWord op) op := by
  unfold decodeWord
  split
  case h_1 h => exact decodeClass0_represents h
  case h_6 h =>
    exact decodeXY0_represents (fun hn => by rw [encode, ← hn]; exact encodeXYN_of_class h) rfl
  case h_9 h => exact decodeClass8_represents h
  case h_10 h =>
    exact decodeXY0_represents (fun hn => by rw [encode, ← hn]; exact encodeXYN_of_class h) rfl
  case h_15 h => exact decodeClassE_represents h
  case h_16 =>
    have hlt := op.isLt
    simp only [imp_false, fieldC_toNat] at *
    exact decodeClassF_represents (by rw [fieldC_toNat]; omega)
  case h_2 h | h_3 h | h_11 h | h_12 h => exact ⟨encodeNNN_of_class h, rfl⟩
  case h_14 h => exact ⟨encodeXYN_of_class h, rfl⟩
  all_goals exact ⟨encodeXNN_of_class ‹_›, rfl⟩

end Decoded

/-- Settles O3: a decoded form has the opcode for its encoding, whose first row is the form's own; an opcode that is
rejected is in R58's table, and no row matches it. -/
theorem decodeFollowsTheOpcodeMap : Obligations.DecodeFollowsTheOpcodeMap := by
  intro op
  have hrep := decodeWord_represents op
  cases hd : decodeWord op with
  | ok i =>
    rw [hd] at hrep
    obtain ⟨henc, hwf⟩ := hrep
    exact ⟨henc ▸ rowOfWord_encode hwf, henc, hwf⟩
  | error r =>
    rw [hd] at hrep
    obtain rfl : r = .unknownOpcode op := hrep
    exact ⟨rowOfWord_of_unknown hd, rfl⟩

/-- Settles O1: each word is written out, so that decoding it computes. -/
theorem specWordsDecodeToTheirForms : Obligations.SpecWordsDecodeToTheirForms := by
  unfold Obligations.SpecWordsDecodeToTheirForms
  and_intros <;> rfl

end Sys2Proof
end

section
/-! Memory (20_memory.md): the statement about R40, and that the canonical form is unique. -/

namespace Sys2Proof.Machine

/-- Settles O6: below 4096 the write goes through, and what it leaves is known at every address. -/
theorem writeThenReadReturnsTheByte : Obligations.WriteThenReadReturnsTheByte := by
  intro s a b hwf
  constructor
  · intro hin
    refine ⟨s.mem.write a b, memWrite_of_lt b hin, Memory.wf_write hwf hin b, fun a' => ?_⟩
    rw [Memory.read_write hwf]
    simp only [eq_comm]
  · exact memWrite_of_ge b

/-- The cells behind the first one of a canonical memory do not list the first one's address. -/
theorem Memory.read_tail_of_le {k a : Nat} {b : Byte} {m : Memory} (hwf : Memory.wf ((k, b) :: m)) (ha : a ≤ k) :
    m.read a = bootByte a := by
  obtain ⟨hlt, -, -, -⟩ := Memory.wf_cons.1 hwf
  exact Memory.read_unlisted fun c hc => (Nat.lt_of_le_of_lt ha (hlt c hc)).ne'

/-- The first cell of a canonical memory shows: at its address the memory reads otherwise than one whose listed addresses
are all higher. -/
theorem Memory.read_head_ne {k : Nat} {b : Byte} {m m' : Memory} (hwf : Memory.wf ((k, b) :: m))
    (hm' : ∀ c ∈ m', k < c.1) : Memory.read ((k, b) :: m) k ≠ m'.read k := by
  obtain ⟨-, -, hb, -⟩ := Memory.wf_cons.1 hwf
  rw [Memory.read_unlisted fun c hc => (hm' c hc).ne']
  simpa [Memory.read] using hb

/-- An address below the first cell's is below every cell's. -/
theorem Memory.lt_of_lt_head {k a : Nat} {b : Byte} {m : Memory} (hwf : Memory.wf ((k, b) :: m)) (ha : a < k) :
    ∀ c ∈ (k, b) :: m, a < c.1 := by
  obtain ⟨hlt, -, -, -⟩ := Memory.wf_cons.1 hwf
  simp only [List.forall_mem_cons]
  exact ⟨ha, fun c hc => ha.trans (hlt c hc)⟩

/-- Settles O7, by induction on both lists: first cells at different addresses would show at the lower one, so they are at
one address, with the byte read there, and the cells behind them read the same. -/
theorem canonicalMemoriesWithEqualReadsAreEqual : Obligations.CanonicalMemoriesWithEqualReadsAreEqual := by
  intro m m' hm hm' hread
  induction m generalizing m' with
  | nil =>
    cases m' with
    | nil => rfl
    | cons c m' =>
      obtain ⟨-, hk, -, -⟩ := Memory.wf_cons.1 hm'
      exact absurd (hread _ hk).symm (Memory.read_head_ne hm' (by simp))
  | cons c m ih =>
    obtain ⟨k, b⟩ := c
    obtain ⟨-, hk, -, hmtail⟩ := Memory.wf_cons.1 hm
    cases m' with
    | nil => exact absurd (hread _ hk) (Memory.read_head_ne hm (by simp))
    | cons c' m' =>
      obtain ⟨k', b'⟩ := c'
      obtain ⟨-, hk', -, hmtail'⟩ := Memory.wf_cons.1 hm'
      rcases Nat.lt_trichotomy k k' with hlt | rfl | hlt
      · exact absurd (hread _ hk) (Memory.read_head_ne hm (Memory.lt_of_lt_head hm' hlt))
      · have hbyte : b = b' := by simpa [Memory.read] using hread _ hk
        have htail : ∀ a, a < 4096 → Memory.read m a = Memory.read m' a := by
          intro a ha
          by_cases hle : a ≤ k
          · rw [Memory.read_tail_of_le hm hle, Memory.read_tail_of_le hm' hle]
          · simpa [Memory.read, show k ≠ a by omega] using hread a ha
        rw [hbyte, ih m' hmtail hmtail' htail]
      · exact absurd (hread _ hk').symm (Memory.read_head_ne hm' (Memory.lt_of_lt_head hm hlt))

end Sys2Proof.Machine
end

section
/-! Register load, arithmetic, logic, shift and random (41_arithmetic.md): the statements about R74 to R85. Each
instruction's update is the model's by computation; what is proved is the value it writes. -/

namespace Sys2Proof.Machine

/-! ### Bytes as numbers -/

theorem byte_add_eq (a b : Byte) : a + b = BitVec.ofNat 8 ((a.toNat + b.toNat) % 256) :=
  BitVec.eq_of_toNat_eq (by simp)

theorem byte_sub_eq (a b : Byte) : a - b = BitVec.ofNat 8 ((256 + a.toNat - b.toNat) % 256) := by
  refine BitVec.eq_of_toNat_eq ?_
  rw [BitVec.toNat_sub, BitVec.toNat_ofNat]
  omega

theorem byte_shiftLeft_one_eq (a : Byte) : a <<< 1 = BitVec.ofNat 8 (2 * a.toNat % 256) := by
  refine BitVec.eq_of_toNat_eq ?_
  rw [BitVec.toNat_shiftLeft, BitVec.toNat_ofNat, Nat.shiftLeft_eq]
  omega

theorem byte_shiftRight_one_eq (a : Byte) : a >>> 1 = BitVec.ofNat 8 (a.toNat / 2) := by
  refine BitVec.eq_of_toNat_eq ?_
  rw [BitVec.toNat_ushiftRight, BitVec.toNat_ofNat, Nat.shiftRight_eq_div_pow]
  omega

/-! ### Sums and flags -/

theorem sum9_toNat (a b : Byte) : (sum9 a b).toNat = a.toNat + b.toNat := by
  simp [sum9]
  omega

theorem sum9_low_eq (a b : Byte) : (sum9 a b).extractLsb' 0 8 = BitVec.ofNat 8 ((a.toNat + b.toNat) % 256) :=
  BitVec.eq_of_toNat_eq (by simp [BitVec.extractLsb'_toNat, sum9_toNat])

theorem carryFlag_eq (a b : Byte) : carryFlag a b = if 255 < a.toNat + b.toNat then 1#8 else 0#8 := by
  simp [carryFlag, flagByte, BitVec.lt_def, sum9_toNat]

theorem notBorrowFlag_eq (a b : Byte) : notBorrowFlag a b = if a.toNat < b.toNat then 0#8 else 1#8 := by
  simp only [notBorrowFlag, flagByte, BitVec.le_def, decide_eq_true_eq, ← Nat.not_lt, ite_not]

/-- A bit of a byte as a flag. -/
theorem flagByte_getLsbD (a : Byte) (k : Nat) : flagByte (a.getLsbD k) = BitVec.ofNat 8 (a.toNat / 2 ^ k % 2) := by
  rw [BitVec.getLsbD, Nat.testBit_eq_decide_div_mod_eq]
  rcases Nat.mod_two_eq_zero_or_one (a.toNat / 2 ^ k) with h | h <;> simp [flagByte, h]

theorem shrFlag_eq (a : Byte) : shrFlag a = BitVec.ofNat 8 (a.toNat % 2) := by
  simpa [shrFlag] using flagByte_getLsbD a 0

theorem shlFlag_eq (a : Byte) : shlFlag a = BitVec.ofNat 8 (a.toNat / 128) := by
  have hbit : a.toNat / 2 ^ 7 % 2 = a.toNat / 128 := by omega
  rw [← hbit]
  exact flagByte_getLsbD a 7

/-! ### The statements -/

/-- Settles O14: the value written is the operand itself. -/
theorem ldFormsLoadTheOperand : Obligations.LdFormsLoadTheOperand := fun _ _ _ _ => ⟨rfl, rfl⟩

/-- Settles O15: addition of bytes is addition modulo 256. -/
theorem addByteWrapsAndKeepsTheFlag : Obligations.AddByteWrapsAndKeepsTheFlag := by
  intro s x nn
  rw [← byte_add_eq]
  rfl

/-- Settles O16: with `LOGIC_CLEARS_VF` = false nothing follows the logic operation. -/
theorem logicFormsAreBitwise : Obligations.LogicFormsAreBitwise := fun _ _ _ => ⟨rfl, rfl, rfl⟩

/-- Settles O17, by the two halves of the 9-bit sum. -/
theorem addRegSetsCarryLast : Obligations.AddRegSetsCarryLast := by
  intro s x y
  rw [← sum9_low_eq, ← carryFlag_eq]
  rfl

/-- Settles O18: subtraction of bytes is subtraction modulo 256, and the flag compares the operands. -/
theorem subFormsSetNotBorrowLast : Obligations.SubFormsSetNotBorrowLast := by
  intro s x y
  constructor
  · rw [← byte_sub_eq, ← notBorrowFlag_eq]
    rfl
  · rw [← byte_sub_eq, ← notBorrowFlag_eq]
    rfl

/-- Settles O19: the operand is `V[X]`, so `Y` does not matter. -/
theorem shiftFormsSetTheBitShiftedOutLast : Obligations.ShiftFormsSetTheBitShiftedOutLast := by
  intro s x y
  constructor
  · rw [← byte_shiftRight_one_eq, ← shrFlag_eq]
    rfl
  · rw [← byte_shiftLeft_one_eq, ← shlFlag_eq]
    rfl

/-- Settles O20: the byte is the model's free value at `draws`, whatever it is. -/
theorem rndMasksAFreshFreeByte : Obligations.RndMasksAFreshFreeByte := fun _ _ _ => rfl

end Sys2Proof.Machine
end

section
/-! Skips (42_skips.md): the statements about R87 to R93. -/

namespace Sys2Proof.Machine

/-- Settles O21, by the one lemma about the end of a skip. -/
theorem byteSkipsCompareWithTheImmediate : Obligations.ByteSkipsCompareWithTheImmediate := by
  intro s x nn
  exact ⟨(endCycle_skipIf _ s).trans (by simp [State.getV]), (endCycle_skipIf _ s).trans (by simp [State.getV])⟩

/-- Settles O22, by the one lemma about the end of a skip. -/
theorem registerSkipsCompareTheRegisters : Obligations.RegisterSkipsCompareTheRegisters := by
  intro s x y
  exact ⟨(endCycle_skipIf _ s).trans (by simp [State.getV]), (endCycle_skipIf _ s).trans (by simp [State.getV])⟩

theorem exec_skp (s : State) (x : RegIndex) :
    exec (.skp x) s = endCycle s (orRaise (keyIndex (s.getV x)) fun k => skipIf (isPressed s k) s) := rfl

theorem exec_sknp (s : State) (x : RegIndex) :
    exec (.sknp x) s = endCycle s (orRaise (keyIndex (s.getV x)) fun k => skipIf (!isPressed s k) s) := rfl

/-- Settles O23: up to 15 the key index is the register's value, and above it is the error. -/
theorem keySkipsTestTheNumberedKey : Obligations.KeySkipsTestTheNumberedKey := by
  intro s x
  constructor
  · intro k hk
    have hindex : keyIndex (s.getV x) = .ok k :=
      (keyIndex_of_le (Nat.le_of_lt_succ (hk.trans_lt k.isLt))).trans (congrArg _ (Fin.ext hk))
    constructor
    · rw [exec_skp, hindex, orRaise_ok, endCycle_skipIf]
      rfl
    · rw [exec_sknp, hindex, orRaise_ok, endCycle_skipIf]
      cases hkey : s.keys[k] <;> simp [isPressed, hkey]
  · intro habove
    have hindex : keyIndex (s.getV x) = .error (.invalidKeyIndex s.v[x]) := keyIndex_of_gt habove
    constructor
    · rw [exec_skp, hindex]
      exact endCycle_raises s _
    · rw [exec_sknp, hindex]
      exact endCycle_raises s _

end Sys2Proof.Machine
end

section
/-! Control transfer (43_control_transfer.md): the statements about R94 to R98. -/

namespace Sys2Proof.Machine

variable {s : State}

/-! ### The meanings, with the checks they start with -/

theorem exec_sys (s : State) (nnn : Addr12) :
    exec (.sys nnn) s = endCycle s (.fault (.unknownOpcode (BitVec.ofNat 16 nnn.toNat))) := by
  rw [BitVec.ofNat_toNat]
  rfl

theorem exec_ret (s : State) : exec .ret s = endCycle s (orRaise (popReturn s) fun p => .jumped (p.2.setPc p.1)) := rfl

theorem exec_jp (s : State) (nnn : Addr12) :
    exec (.jp nnn) s = endCycle s (orRaise (checkTarget nnn.toNat) fun _ =>
      .jumped (s.setPc (BitVec.ofNat 16 nnn.toNat))) := by
  rw [BitVec.ofNat_toNat]
  rfl

theorem exec_call (s : State) (nnn : Addr12) :
    exec (.call nnn) s = endCycle s (orRaise (checkTarget nnn.toNat) fun _ =>
      orRaise (pushReturn s (s.pc + 2#16)) fun t => .jumped (t.setPc (BitVec.ofNat 16 nnn.toNat))) := by
  rw [BitVec.ofNat_toNat]
  rfl

theorem exec_jpV0 (s : State) (nnn : Addr12) :
    exec (.jpV0 nnn) s = endCycle s (orRaise (checkTarget (nnn.toNat + s.v[0].toNat)) fun _ =>
      .jumped (s.setPc (BitVec.ofNat 16 (nnn.toNat + s.v[0].toNat)))) := rfl

/-! ### The statements -/

/-- Settles O24: under `SYS_POLICY` = fault the meaning of SYS is its error. -/
theorem sysRaisesUnknownOpcode : Obligations.SysRaisesUnknownOpcode := by
  intro s nnn
  rw [exec_sys]
  exact endCycle_raises s _

/-- Settles O25: the two branches of a pop. -/
theorem retPopsTheReturnAddress : Obligations.RetPopsTheReturnAddress := by
  intro s
  constructor
  · intro k hk hsp
    rw [exec_ret, popReturn_of_sp_eq_succ ⟨k, hk⟩ hsp]
    rfl
  · intro hempty
    rw [exec_ret, popReturn_empty hempty]
    exact endCycle_raises s _

/-- Settles O26: the two branches of the target check. -/
theorem jpLoadsEvenTargets : Obligations.JpLoadsEvenTargets := by
  intro s nnn
  constructor
  · intro heven
    rw [exec_jp, checkTarget_even heven]
    rfl
  · intro hodd
    rw [exec_jp, checkTarget_odd hodd]
    exact endCycle_raises s _

/-- Settles O27: the target check, then the push, each with its two branches. -/
theorem callPushesTheNextAddress : Obligations.CallPushesTheNextAddress := by
  intro s nnn
  refine ⟨fun hroom heven => ?_, fun hodd => ?_, fun heven hfull => ?_⟩
  · rw [exec_call, checkTarget_even heven, orRaise_ok, pushReturn_of_lt _ hroom]
    rfl
  · rw [exec_call, checkTarget_odd hodd]
    exact endCycle_raises s _
  · rw [exec_call, checkTarget_even heven, orRaise_ok, pushReturn_full _ hfull]
    exact endCycle_raises s _

/-- Settles O28: the target check on the unbounded sum. -/
theorem jpV0AddsTheOffsetRegister : Obligations.JpV0AddsTheOffsetRegister := by
  intro s nnn
  constructor
  · intro heven
    rw [exec_jpV0, checkTarget_even heven]
    rfl
  · intro hodd
    rw [exec_jpV0, checkTarget_odd hodd]
    exact endCycle_raises s _

end Sys2Proof.Machine
end

section
/-! Key wait and timers (44_keys_and_timers.md): the statements about R99 to R102. -/

namespace Sys2Proof.Machine

/-- FX0A with no key pressed blocks: the state is left as it is (R67). -/
theorem exec_ldKey_of_none {s : State} (x : RegIndex) (h : ∀ k : KeyIndex, s.keys[k] = false) :
    exec (.ldKey x) s = .next s := by
  show execLdKey x s = _
  rw [execLdKey, firstPressed_none.2 h]
  rfl

/-- Settles O29: the first pressed key is none, or the lowest. -/
theorem keyWaitBlocksOrStoresTheLowestKey : Obligations.KeyWaitBlocksOrStoresTheLowestKey := by
  intro s x
  refine ⟨exec_ldKey_of_none x, fun k hk hlowest => ?_⟩
  show execLdKey x s = _
  rw [execLdKey, firstPressed_some.2 ⟨hk, hlowest⟩]
  rfl

/-- Settles O30: the value written is the timer's. -/
theorem ldFromDTReadsTheDelayTimer : Obligations.LdFromDTReadsTheDelayTimer := fun _ _ => rfl

/-- Settles O31: the value written is the register's. -/
theorem timerWritesOverwriteTheTimer : Obligations.TimerWritesOverwriteTheTimer := fun _ _ => ⟨rfl, rfl⟩

end Sys2Proof.Machine
end

section
/-! Display (45_display.md): the statements about R103 to R106. -/

namespace Sys2Proof.Machine

/-- Settles O32: the display left is the clear one. -/
theorem clsClearsEveryCell : Obligations.ClsClearsEveryCell := fun _ => ⟨Display.clear, rfl, Display.cell_clear⟩

theorem exec_drw (s : State) (x y : RegIndex) (n : Nibble) :
    exec (.drw x y n) s = endCycle s (orRaise (readBytes s s.i.toNat n.toNat) fun rows =>
      let d := drawSprite s.disp (startColumn (s.getV x)) (startRow (s.getV y)) rows
      .next ((s.setDisp d.1).setVF (collisionFlag d.2))) := rfl

/-- Columns: `c` is `j` to the right of the start exactly when `j` is the distance from the start to `c`, around the edge. -/
theorem column_eq_iff (v : Byte) (c : Column) {j : Nat} (hj : j < 8) :
    c = startColumn v + Fin.ofNat 64 j ↔ (c.val + 64 - v.toNat % 64) % 64 = j := by
  have := c.isLt
  simp only [startColumn, Fin.ext_iff, Fin.val_add, Fin.val_ofNat]
  omega

/-- Rows: `r` is `i` below the start exactly when `i` is the distance from the start to `r`, around the edge. -/
theorem row_eq_iff (v : Byte) (r : Row) {i : Nat} (hi : i < 16) :
    r = startRow v + Fin.ofNat 32 i ↔ (r.val + 32 - v.toNat % 32) % 32 = i := by
  have := r.isLt
  simp only [startRow, Fin.ext_iff, Fin.val_add, Fin.val_ofNat]
  omega

theorem getD_map_range {f : Nat → Byte} {m i : Nat} (hi : i < m) : ((List.range m).map f).getD i 0#8 = f i := by
  simp [hi]

/-- The row bytes of the sprite that DXYN draws in `s`: `n` bytes from `I` upwards. -/
def spriteRows (s : State) (n : Nibble) : List Byte := (List.range n.toNat).map fun k => s.mem.read (s.i.toNat + k)

/-- The cells the blit engine visits are those the closed form covers. -/
theorem mem_spritePixels_iff_spriteCovers (s : State) (x y : RegIndex) (n : Nibble) (c : Column) (r : Row) :
    (c, r) ∈ spritePixels (startColumn s.v[x]) (startRow s.v[y]) (spriteRows s n) ↔ spriteCovers s x y n c r = true := by
  have hn := n.isLt
  simp only [mem_spritePixels, spriteCovers, Bool.and_eq_true, decide_eq_true_eq, spriteRows, List.length_map,
    List.length_range, Prod.mk.injEq]
  constructor
  · rintro ⟨i, hi, j, hj, hbit, hc, hr⟩
    rw [column_eq_iff _ _ hj] at hc
    rw [row_eq_iff _ _ (hi.trans hn)] at hr
    rw [getD_map_range hi] at hbit
    rw [hc, hr]
    exact ⟨⟨hj, hi⟩, hbit⟩
  · rintro ⟨⟨hj, hi⟩, hbit⟩
    rw [← getD_map_range (f := fun k => s.mem.read (s.i.toNat + k)) hi] at hbit
    exact ⟨_, hi, _, hj, hbit, (column_eq_iff _ _ hj).2 rfl, (row_eq_iff _ _ (hi.trans hn)).2 rfl⟩

/-- Settles O33: the bytes are read in order or the read raises; the cells visited are the covered ones, and each is
toggled once. -/
theorem drwXorsTheSpriteAndReportsCollision : Obligations.DrwXorsTheSpriteAndReportsCollision := by
  intro s x y n
  constructor
  · intro hfits
    have hn := n.isLt
    obtain ⟨hcells, hhit⟩ := drawSprite_spec s.disp (startColumn s.v[x]) (startRow s.v[y]) (rows := spriteRows s n)
      (by rw [spriteRows, List.length_map, List.length_range]; omega)
    refine ⟨(drawSprite s.disp (startColumn s.v[x]) (startRow s.v[y]) (spriteRows s n)).1, ?_, fun c r => ?_⟩
    · have hcollision : (drawSprite s.disp (startColumn s.v[x]) (startRow s.v[y]) (spriteRows s n)).2 = true ↔
          ∃ (c : Column) (r : Row), s.disp[c][r] = true ∧ spriteCovers s x y n c r = true := by
        simp only [hhit, List.any_eq_true, Prod.exists, mem_spritePixels_iff_spriteCovers, and_comm]
        rfl
      rw [exec_drw, readBytes_fits hfits]
      simp only [← hcollision]
      rfl
    · refine (hcells c r).trans ?_
      simp only [mem_spritePixels_iff_spriteCovers, Bool.decide_eq_true]
      rfl
  · intro hn hover
    rw [exec_drw, readBytes_overruns hn hover]
    exact endCycle_raises s _

/-- Settles O34: the second draw toggles the same cells again, and meets a set cell where the first met an unset one. -/
theorem drawingTwiceRestoresTheDisplay : Obligations.DrawingTwiceRestoresTheDisplay := by
  intro d x0 y0 rows hlen
  have hrows : rows.length ≤ 32 := by omega
  obtain ⟨hfirst, -⟩ := drawSprite_spec d x0 y0 hrows
  obtain ⟨hsecond, hcollide⟩ := drawSprite_spec (drawSprite d x0 y0 rows).1 x0 y0 hrows
  constructor
  · refine Display.ext_cell fun c r => ?_
    rw [hsecond, hfirst, Bool.xor_assoc, Bool.xor_self, Bool.xor_false]
  · rw [hcollide, List.any_eq_true]
    refine exists_congr fun p => and_congr_right fun hp => ?_
    rw [hfirst]
    simp [hp, Display.cell]

end Sys2Proof.Machine
end

section
/-! Index register and memory transfer (46_index_and_memory.md): the statements about R108 to R113. -/

namespace Sys2Proof.Machine

/-! ### Values -/

theorem index_add_eq (w : Word) (b : Byte) :
    w + b.zeroExtend 16 = BitVec.ofNat 16 ((w.toNat + b.toNat) % 65536) := by
  refine BitVec.eq_of_toNat_eq ?_
  simp

theorem glyphAddress_eq (b : Byte) : glyphAddress b = BitVec.ofNat 16 (5 * (b.toNat % 16)) := by
  have hlow : (b &&& 0x0F#8).toNat = b.toNat % 16 := Nat.and_two_pow_sub_one_eq_mod b.toNat 4
  simp [glyphAddress, hlow, Config.fontBase, Config.glyphBytes]

theorem bcdDigits_eq (b : Byte) :
    bcdDigits b =
      [BitVec.ofNat 8 (b.toNat / 100), BitVec.ofNat 8 (b.toNat / 10 % 10), BitVec.ofNat 8 (b.toNat % 10)] := by
  simp only [bcdDigits, List.cons.injEq, and_true, ← BitVec.toNat_inj, BitVec.toNat_udiv, BitVec.toNat_umod,
    BitVec.toNat_ofNat, Nat.reducePow, Nat.reduceMod]
  omega

theorem firstRegisters_length (s : State) (x : RegIndex) : (firstRegisters s x).length = x.val + 1 := by
  simp [firstRegisters]

theorem firstRegisters_getD (s : State) (x k : RegIndex) (hk : k ≤ x) (b : Byte) :
    (firstRegisters s x).getD k.val b = s.v[k] := by
  have : k.val < x.val + 1 := Nat.lt_succ_of_le hk
  simp [firstRegisters, List.getD, this]

theorem loadRegisters_getElem (v : Vector Byte 16) (f : Nat → Byte) (x k : RegIndex) :
    (loadRegisters v ((List.range (x.val + 1)).map f))[k] = if k ≤ x then f k.val else v[k] := by
  by_cases hk : k ≤ x <;> simp [loadRegisters, hk]

/-! ### The meanings, with the accesses they make -/

theorem exec_ldBcd (s : State) (x : RegIndex) :
    exec (.ldBcd x) s = endCycle s (orRaise (writeBytes s s.i.toNat (bcdDigits s.v[x])) fun t => .next t) := rfl

theorem exec_dump (s : State) (x : RegIndex) :
    exec (.dump x) s = endCycle s (orRaise (writeBytes s s.i.toNat (firstRegisters s x)) fun t => .next (t.setI s.i)) := rfl

theorem exec_load (s : State) (x : RegIndex) :
    exec (.load x) s = endCycle s (orRaise (readBytes s s.i.toNat (x.val + 1)) fun bytes =>
      .next { s with v := loadRegisters s.v bytes }) := rfl

/-! ### The statements -/

/-- Settles O35: the 12 bits of the address, extended by zeros. -/
theorem ldILoadsTheAddress : Obligations.LdILoadsTheAddress := by
  intro s nnn
  rw [BitVec.ofNat_toNat]
  rfl

/-- Settles O36: the sum modulo 65536, and the place of the digit's glyph. -/
theorem addIWrapsAndLdGlyphPointsAtTheDigit : Obligations.AddIWrapsAndLdGlyphPointsAtTheDigit := by
  intro s x
  constructor
  · rw [← index_add_eq]
    rfl
  · rw [← glyphAddress_eq]
    rfl

/-- Settles O37: the three digits are written in order or the write raises. -/
theorem bcdStoresThreeDigits : Obligations.BcdStoresThreeDigits := by
  intro s x hwf
  constructor
  · intro hin
    have hfits : s.i.toNat + (bcdDigits s.v[x]).length ≤ 4096 := hin
    have hread := Memory.read_writeList hwf hfits
    refine ⟨s.mem.writeList s.i.toNat (bcdDigits s.v[x]), ?_, ?_, ?_, ?_, fun a ha => ?_⟩
    · rw [exec_ldBcd, writeBytes_fits (.inr hfits)]
      rfl
    -- The digit at each of the three places.
    iterate 3
      · rw [hread, bcdDigits_eq]
        simp
    · rw [hread]
      split
      next hle =>
        have hpast : 3 ≤ a - s.i.toNat := by omega
        exact List.getD_eq_default _ _ hpast
      next => rfl
  · intro hout
    rw [exec_ldBcd, writeBytes_overruns (by simp [bcdDigits]) (Nat.lt_succ_of_le hout)]
    exact endCycle_raises s _

/-- Settles O38: the registers are written in order or the write raises. -/
theorem dumpStoresTheFirstRegisters : Obligations.DumpStoresTheFirstRegisters := by
  intro s x hwf
  have hlen := firstRegisters_length s x
  constructor
  · intro hin
    have hfits : s.i.toNat + (firstRegisters s x).length ≤ 4096 := by omega
    have hread := Memory.read_writeList hwf hfits
    refine ⟨s.mem.writeList s.i.toNat (firstRegisters s x), ?_, fun k hk => ?_, fun a ha => ?_⟩
    · rw [exec_dump, writeBytes_fits (.inr hfits)]
      rfl
    · rw [hread, if_pos (Nat.le_add_right _ _), Nat.add_sub_cancel_left, firstRegisters_getD s x k hk]
    · rw [hread]
      split
      next hle => exact List.getD_eq_default _ _ (by omega)
      next => rfl
  · intro hout
    rw [exec_dump, writeBytes_overruns (List.ne_nil_of_length_eq_add_one hlen) (by omega)]
    exact endCycle_raises s _

/-- Settles O39: the bytes are read in order or the read raises. -/
theorem loadFillsTheFirstRegisters : Obligations.LoadFillsTheFirstRegisters := by
  intro s x
  constructor
  · intro hin
    refine ⟨_, ?_, fun k => loadRegisters_getElem s.v (fun j => s.mem.read (s.i.toNat + j)) x k⟩
    rw [exec_load, readBytes_fits (.inr hin)]
    rfl
  · intro hout
    rw [exec_load, readBytes_overruns (Nat.succ_ne_zero _) (Nat.lt_succ_of_le hout)]
    exact endCycle_raises s _

end Sys2Proof.Machine
end

section
/-! Frames: what an instruction that completes may change, said once for all 35 forms. The statements about R16, R17, R19,
R23, R27, R29, R31, R34, R36 and R44 are its parts. -/

namespace Sys2Proof.Machine

/-! ### Which forms leave what alone -/

/-- The forms that do not write `I` (R19, D13). -/
def KeepsI (i : Instr) : Prop := (∀ a, i ≠ .ldI a) ∧ (∀ x, i ≠ .addI x) ∧ ∀ x, i ≠ .ldGlyph x

/-- The forms that do not write memory (R36, R44). -/
def KeepsMem (i : Instr) : Prop := (∀ x, i ≠ .ldBcd x) ∧ ∀ x, i ≠ .dump x

/-- The forms that do not write `SP` (R23). -/
def KeepsSP (i : Instr) : Prop := (∀ a, i ≠ .call a) ∧ i ≠ .ret

/-- The forms that do not write the display (R31). -/
def KeepsDisp (i : Instr) : Prop := i ≠ .cls ∧ ∀ x y n, i ≠ .drw x y n

/-- The forms after which `pc` is where it was, or at the next instruction, or at the one after it (R66, R67, R87). -/
def Sequential (i : Instr) : Prop := i ≠ .ret ∧ (∀ a, i ≠ .jp a) ∧ (∀ a, i ≠ .call a) ∧ ∀ a, i ≠ .jpV0 a

/-- What the form `i` may change from `s` to `t`; `pc` and the model's counter `draws` are left out. -/
structure Frame (i : Instr) (s t : State) : Prop where
  v : ∀ k : RegIndex, mayWriteV i k = false → t.v[k] = s.v[k]
  mem : KeepsMem i → t.mem = s.mem
  memWf : s.mem.wf → t.mem.wf
  index : KeepsI i → t.i = s.i
  sp : KeepsSP i → t.sp = s.sp
  stack : (∀ a, i ≠ .call a) → t.stack = s.stack
  dt : (∀ x, i ≠ .ldToDT x) → t.dt = s.dt
  st : (∀ x, i ≠ .ldToST x) → t.st = s.st
  disp : KeepsDisp i → t.disp = s.disp
  keys : t.keys = s.keys
  mode : t.mode = s.mode
  outbox : t.outbox = s.outbox
  events : t.events = s.events

/-! ### One rule for each operation on the state -/

section FrameRules

variable {i : Instr} {s u : State}

theorem Frame.refl (i : Instr) (s : State) : Frame i s s where
  v _ _ := rfl
  mem _ := rfl
  memWf := id
  index _ := rfl
  sp _ := rfl
  stack _ := rfl
  dt _ := rfl
  st _ := rfl
  disp _ := rfl
  keys := rfl
  mode := rfl
  outbox := rfl
  events := rfl

theorem Frame.setPc (h : Frame i s u) (w : Word) : Frame i s (u.setPc w) := { h with }

theorem Frame.setV (h : Frame i s u) {x : RegIndex} (hx : mayWriteV i x = true) (b : Byte) : Frame i s (u.setV x b) :=
  { h with
    v := fun k hk => by
      have hne : x.val ≠ k.val := fun heq => by rw [← Fin.ext heq, hx] at hk; cases hk
      rw [← h.v k hk]
      exact Vector.getElem_set_ne x.isLt k.isLt hne }

theorem Frame.setI (h : Frame i s u) (hi : ¬ KeepsI i) (w : Word) : Frame i s (u.setI w) :=
  { h with index := fun hk => absurd hk hi }

theorem Frame.setDT {x : RegIndex} (h : Frame (.ldToDT x) s u) (b : Byte) : Frame (.ldToDT x) s (u.setDT b) :=
  { h with dt := fun hk => absurd rfl (hk x) }

theorem Frame.setST {x : RegIndex} (h : Frame (.ldToST x) s u) (b : Byte) : Frame (.ldToST x) s (u.setST b) :=
  { h with st := fun hk => absurd rfl (hk x) }

theorem Frame.setDisp (h : Frame i s u) (hi : ¬ KeepsDisp i) (d : Display) : Frame i s (u.setDisp d) :=
  { h with disp := fun hk => absurd hk hi }

theorem Frame.setMem (h : Frame i s u) (hi : ¬ KeepsMem i) {m : Memory} (hm : s.mem.wf → m.wf) :
    Frame i s (u.setMem m) :=
  { h with mem := fun hk => absurd hk hi, memWf := hm }

theorem Frame.setSP (h : Frame .ret s u) (n : Fin 17) : Frame .ret s { u with sp := n } :=
  { h with sp := fun ⟨_, hk⟩ => absurd rfl hk }

theorem Frame.setStackSP {a : Addr12} (h : Frame (.call a) s u) (st : Vector Word 16) (n : Fin 17) :
    Frame (.call a) s { u with stack := st, sp := n } :=
  { h with stack := fun hk => absurd rfl (hk a), sp := fun ⟨hk, _⟩ => absurd rfl (hk a) }

/-- FX65 writes the registers up to `V[X]` (R113). -/
theorem Frame.loadRegisters {x : RegIndex} (h : Frame (.load x) s s) (f : Nat → Byte) :
    Frame (.load x) s { s with v := loadRegisters s.v ((List.range (x.val + 1)).map f) } :=
  { h with
    v := fun k hk => by
      have hnot : ¬ k ≤ x := by simpa [mayWriteV] using hk
      exact (loadRegisters_getElem s.v f x k).trans (if_neg hnot) }

/-! ### The end of a cycle -/

/-- What the body of an instruction leaves before the cycle's end: the frame, and `pc` as it was, or skipped over one
instruction where the form is sequential. -/
def CycleOutcome.Framed (i : Instr) (s : State) : CycleOutcome → Prop
  | .next u => Frame i s u ∧ u.pc = s.pc
  | .jumped u => Frame i s u ∧ (Sequential i → u.pc = s.pc + 4#16)
  | .blocked => True
  | .fault _ => True

/-- An instruction raised from `s`, or it completed in a state that its frame allows. -/
def Completes (i : Instr) (s : State) (o : Host.Outcome State Fault Refusal) : Prop :=
  (∃ e, o = .next (s.takeError e (some s.pc))) ∨
    ∃ t, o = .next t ∧ Frame i s t ∧ (Sequential i → t.pc = s.pc ∨ t.pc = s.pc + 2#16 ∨ t.pc = s.pc + 4#16)

theorem completes_of_framed {o : CycleOutcome} (h : o.Framed i s) : Completes i s (endCycle s o) := by
  cases o with
  | next u =>
    obtain ⟨hframe, hpc⟩ := h
    exact .inr ⟨_, rfl, hframe.setPc _, fun _ => .inr (.inl (congrArg (· + 2#16) hpc))⟩
  | jumped u =>
    obtain ⟨hframe, hpc⟩ := h
    exact .inr ⟨u, rfl, hframe, fun hseq => .inr (.inr (hpc hseq))⟩
  | blocked => exact .inr ⟨s, rfl, Frame.refl i s, fun _ => .inl rfl⟩
  | fault e => exact .inl ⟨e, rfl⟩

theorem completes_of_next (h : Frame i s u) (hpc : u.pc = s.pc) : Completes i s (endCycle s (.next u)) :=
  completes_of_framed ⟨h, hpc⟩

theorem framed_orRaise {α : Type} {r : Except Fault α} {k : α → CycleOutcome}
    (h : ∀ a, r = .ok a → (k a).Framed i s) : (orRaise r k).Framed i s := by
  cases r with
  | ok a => exact h a rfl
  | error e => exact True.intro

theorem framed_skipIf (cond : Bool) : (skipIf cond s).Framed i s := by
  cases cond
  · exact ⟨Frame.refl i s, rfl⟩
  · exact ⟨(Frame.refl i s).setPc _, fun _ => rfl⟩

/-- Bytes written in a form that may write memory: the frame is kept, and so is the canonical form. -/
theorem frame_writeBytes (hi : ¬ KeepsMem i) {addr : Nat} {bs : List Byte} (h : writeBytes s addr bs = .ok u) :
    Frame i s u ∧ u.pc = s.pc := by
  obtain ⟨hfits, hok⟩ | herr := writeBytes_cases s addr bs
  · obtain rfl : s.setMem (s.mem.writeList addr bs) = u := by simpa [hok] using h
    refine ⟨(Frame.refl i s).setMem hi fun hwf => ?_, rfl⟩
    obtain rfl | hle := hfits
    · exact hwf
    · exact Memory.wf_writeList hwf hle
  · rw [herr] at h
    cases h

theorem frame_popReturn {p : Word × State} (h : popReturn s = .ok p) : Frame .ret s p.2 := by
  by_cases hpos : 0 < s.sp.val
  · rw [popReturn_of_pos hpos] at h
    cases h
    exact (Frame.refl _ s).setSP _
  · rw [popReturn_empty (by omega)] at h
    cases h

theorem frame_pushReturn {a : Addr12} {w : Word} (h : pushReturn s w = .ok u) : Frame (.call a) s u := by
  by_cases hroom : s.sp.val < 16
  · rw [pushReturn_of_lt w hroom] at h
    cases h
    exact (Frame.refl _ s).setStackSP _ _
  · rw [pushReturn_full w (by omega)] at h
    cases h

theorem frame_readBytes_load {x : RegIndex} {bytes : List Byte} (h : readBytes s s.i.toNat (x.val + 1) = .ok bytes) :
    Frame (.load x) s { s with v := loadRegisters s.v bytes } := by
  by_cases hfits : s.i.toNat + (x.val + 1) ≤ 4096
  · rw [readBytes_fits (.inr hfits)] at h
    cases h
    exact (Frame.refl _ s).loadRegisters _
  · rw [readBytes_overruns (Nat.succ_ne_zero _) (by omega)] at h
    cases h

end FrameRules

/-! ### Every instruction -/

theorem exec_completes (i : Instr) (s : State) : Completes i s (exec i s) := by
  have hid := Frame.refl i s
  cases i
  case cls => exact completes_of_next (hid.setDisp (by simp [KeepsDisp]) _) rfl
  case ret =>
    rw [exec_ret]
    exact completes_of_framed (framed_orRaise fun _ hp =>
      ⟨(frame_popReturn hp).setPc _, fun ⟨hret, _⟩ => absurd rfl hret⟩)
  case sys nnn => rw [exec_sys]; exact completes_of_framed True.intro
  case jp nnn =>
    rw [exec_jp]
    exact completes_of_framed (framed_orRaise fun _ _ => ⟨hid.setPc _, fun ⟨_, hjp, _⟩ => absurd rfl (hjp nnn)⟩)
  case jpV0 nnn =>
    rw [exec_jpV0]
    exact completes_of_framed (framed_orRaise fun _ _ => ⟨hid.setPc _, fun ⟨_, _, _, hjpV0⟩ => absurd rfl (hjpV0 nnn)⟩)
  case call nnn =>
    rw [exec_call]
    exact completes_of_framed (framed_orRaise fun _ _ => framed_orRaise fun _ hu =>
      ⟨(frame_pushReturn hu).setPc _, fun ⟨_, _, hcall, _⟩ => absurd rfl (hcall nnn)⟩)
  case seByte | sneByte | seReg | sneReg => exact completes_of_framed (framed_skipIf _)
  case skp x => rw [exec_skp]; exact completes_of_framed (framed_orRaise fun _ _ => framed_skipIf _)
  case sknp x => rw [exec_sknp]; exact completes_of_framed (framed_orRaise fun _ _ => framed_skipIf _)
  case ldByte | addByte | ldReg | orReg | andReg | xorReg | ldFromDT =>
    exact completes_of_next (hid.setV (by simp [mayWriteV]) _) rfl
  case rnd x nn =>
    exact completes_of_next ({ hid.setV (x := x) (by simp [mayWriteV]) _ with }) rfl
  case addReg x y | subReg x y | shr x y | subn x y | shl x y =>
    exact completes_of_next ((hid.setV (x := x) (by simp [mayWriteV]) _).setV (x := 15) (by simp [mayWriteV]) _) rfl
  case ldI | addI | ldGlyph => exact completes_of_next (hid.setI (by simp [KeepsI]) _) rfl
  case drw x y n =>
    rw [exec_drw]
    exact completes_of_framed (framed_orRaise fun _ _ =>
      ⟨(hid.setDisp (by simp [KeepsDisp]) _).setV (x := 15) (by simp [mayWriteV]) _, rfl⟩)
  case ldKey x =>
    show Completes _ _ (execLdKey x s)
    rw [execLdKey]
    cases firstPressed s with
    | none => exact completes_of_framed True.intro
    | some k => exact completes_of_next (hid.setV (by simp [mayWriteV]) _) rfl
  case ldToDT => exact completes_of_next (hid.setDT _) rfl
  case ldToST => exact completes_of_next (hid.setST _) rfl
  case ldBcd x =>
    rw [exec_ldBcd]
    exact completes_of_framed (framed_orRaise fun _ hu => frame_writeBytes (by simp [KeepsMem]) hu)
  case dump x =>
    rw [exec_dump]
    refine completes_of_framed (framed_orRaise fun u hu => ?_)
    obtain ⟨hframe, hpc⟩ := frame_writeBytes (i := .dump x) (by simp [KeepsMem]) hu
    exact ⟨{ hframe with index := fun _ => rfl }, hpc⟩
  case load x =>
    rw [exec_load]
    exact completes_of_framed (framed_orRaise fun _ hbytes => ⟨frame_readBytes_load hbytes, rfl⟩)

/-- An instruction that leaves the machine running has raised nothing. -/
theorem completed_of_exec {i : Instr} {s t : State} (h : exec i s = .next t) (ht : t.Running) :
    Frame i s t ∧ (Sequential i → t.pc = s.pc ∨ t.pc = s.pc + 2#16 ∨ t.pc = s.pc + 4#16) := by
  obtain ⟨e, he⟩ | ⟨u, hu, hdone⟩ := exec_completes i s
  · cases h.symm.trans he
    exact absurd ht (State.takeError_not_running s e _)
  · cases h.symm.trans hu
    exact hdone

theorem frame_of_exec {i : Instr} {s t : State} (h : exec i s = .next t) (ht : t.Running) : Frame i s t :=
  (completed_of_exec h ht).1

/-! ### The statements -/

/-- Settles O40: the registers' part of the frame. -/
theorem onlyDestinationRegistersChange : Obligations.OnlyDestinationRegistersChange :=
  fun _ _ _ hexec hrun => (frame_of_exec hexec hrun).v

/-- Settles O41: the memory's part of the frame. -/
theorem onlyBcdAndDumpChangeMemory : Obligations.OnlyBcdAndDumpChangeMemory := by
  intro i s t hexec hrun hbcd hdump a
  rw [(frame_of_exec hexec hrun).mem ⟨hbcd, hdump⟩]

/-- Settles O42: the other parts of the frame. -/
theorem specialStateChangesOnlyByItsForms : Obligations.SpecialStateChangesOnlyByItsForms := by
  intro i s t hexec hrun
  have hframe := frame_of_exec hexec hrun
  exact ⟨fun hldI haddI hglyph => hframe.index ⟨hldI, haddI, hglyph⟩, fun hcall hret => hframe.sp ⟨hcall, hret⟩,
    hframe.stack, hframe.dt, hframe.st, fun hcls hdrw => hframe.disp ⟨hcls, hdrw⟩, hframe.keys, hframe.mode,
    hframe.outbox, hframe.events⟩

end Sys2Proof.Machine
end

section
/-! The execution cycle (40_execution_cycle.md): the statements about R62 to R65, R68 and R117. -/

namespace Sys2Proof.Machine

variable {s : State}

/-! ### Words and their bytes (R42, R64) -/

theorem wordOfBytes_eq (hi lo : Byte) : wordOfBytes hi lo = BitVec.ofNat 16 (256 * hi.toNat + lo.toNat) := by
  refine BitVec.eq_of_toNat_eq ?_
  have hhi := hi.isLt
  have hlo := lo.isLt
  rw [wordOfBytes, BitVec.toNat_append, ← Nat.shiftLeft_add_eq_or_of_lt hlo, Nat.shiftLeft_eq, BitVec.toNat_ofNat]
  omega

theorem wordOfBytes_highByte_lowByte (op : Word) : wordOfBytes (highByte op) (lowByte op) = op :=
  BitVec.extractLsb'_append_extractLsb'_eq_extractLsb' rfl |>.trans BitVec.extractLsb'_eq_self

theorem tableWord_toNat (op : Word) : tableWord 16 op.toNat = op := by
  rw [tableWord, Nat.mod_eq_of_lt op.isLt, BitVec.ofNat_toNat, BitVec.setWidth_eq]

/-! ### Fetch and decode -/

theorem fetchDecode_of_lt (h : s.pc.toNat + 1 < 4096) :
    fetchDecode s = decodeOrRaise (wordOfBytes (s.mem.read s.pc.toNat) (s.mem.read (s.pc.toNat + 1))) := by
  rw [fetchDecode, fetch_fits h]

theorem decodeOrRaise_ok {op : Word} {i : Instr} (h : decodeWord op = .ok i) : decodeOrRaise op = .ok i := by
  rw [decodeOrRaise, h]

theorem decodeOrRaise_error {op : Word} {r : DecodeReject} (h : decodeWord op = .error r) :
    decodeOrRaise op = .error (.unknownOpcode op) := by
  rw [decodeOrRaise, h]

theorem cycle_of_fetchDecode_ok {i : Instr} (h : fetchDecode s = .ok i) : cycle s = exec i s := by
  rw [cycle, h]

theorem cycle_raises_of_fetchDecode_error {e : Fault} (h : fetchDecode s = .error e) : Raises (cycle s) s e := by
  rw [cycle, h]
  exact endCycle_raises s e

theorem cycle_raises_of_overrun (h : 4096 ≤ s.pc.toNat + 1) :
    Raises (cycle s) s (.outOfRangeMemoryAccess (max s.pc.toNat 4096)) :=
  cycle_raises_of_fetchDecode_error (by rw [fetchDecode, fetch_overruns h])

/-- Everything a cycle can end in (R68, R72): an error of this cycle, or an instruction completed within its frame. -/
theorem cycle_ends (s : State) :
    (∃ e, cycle s = .next (s.takeError e (some s.pc))) ∨
      ∃ i t, s.pc.toNat + 1 < 4096 ∧ exec i s = .next t ∧ cycle s = .next t ∧ Frame i s t := by
  obtain hraise | ⟨i, hpc, -, hcycle⟩ := cycle_cases s
  · exact .inl hraise
  · obtain ⟨e, hraise⟩ | ⟨t, hexec, hframe, -⟩ := exec_completes i s
    · exact .inl ⟨e, hcycle.trans hraise⟩
    · exact .inr ⟨i, t, hpc, hexec, hcycle.trans hexec, hframe⟩

/-! ### The statements -/

/-- Settles O10: in each of the three ways the step is the cycle, and the cycle executes what it decodes. -/
theorem stepRunsTheDecodedInstruction : Obligations.StepRunsTheDecodedInstruction := by
  intro s i hpc hdecode
  have hfetch : fetchDecode s = .ok i := by
    rw [fetchDecode_of_lt hpc, wordOfBytes_eq]
    exact decodeOrRaise_ok hdecode
  refine ⟨fun hmode hevents => ?_, fun rest hmode hevents => ?_, fun rest hmode hevents => ?_⟩
  · rw [step_own hevents, ownEvent, hmode]
    exact cycle_of_fetchDecode_ok hfetch
  · rw [step_event_of_running hevents hmode]
    exact cycle_of_fetchDecode_ok hfetch
  · rw [step_event_of_running hevents hmode]
    exact cycle_of_fetchDecode_ok hfetch

theorem fetchPlace_lt (s : State) : (fetchPlace s).toNat + 1 < 4096 := by
  unfold fetchPlace
  split
  next h => exact h
  next => decide

/-- The bytes of a placed opcode are read where the next cycle fetches. -/
theorem fetchDecode_placeWord (hwf : s.mem.wf) (op : Word) : fetchDecode (placeWord s op) = decodeOrRaise op := by
  have hplace := fetchPlace_lt s
  have hread := Memory.read_writeList hwf (a := (fetchPlace s).toNat) (bs := [highByte op, lowByte op]) hplace
  rw [fetchDecode_of_lt hplace]
  show decodeOrRaise (wordOfBytes (Memory.read (Memory.writeList s.mem _ _) (fetchPlace s).toNat)
    (Memory.read (Memory.writeList s.mem _ _) ((fetchPlace s).toNat + 1))) = _
  rw [hread, hread]
  simp [wordOfBytes_highByte_lowByte]

/-- Settles O11: the fetched word is the instruction's opcode, which decodes to the instruction. -/
theorem placedInstructionIsExecuted : Obligations.PlacedInstructionIsExecuted := by
  intro s i hmem hwf
  rw [State.withFetchWord, tableWord_toNat, step_own rfl]
  refine cycle_of_fetchDecode_ok ?_
  rw [fetchDecode_placeWord hmem]
  exact decodeOrRaise_ok (decodeOfEncodeIsTheInstruction i hwf)

/-- Settles O12: the three errors in the order of R117. -/
theorem fetchAndDecodeErrorsInOrder : Obligations.FetchAndDecodeErrorsInOrder := by
  intro s
  refine ⟨fun hfirst => ?_, fun hsecond => ?_, fun hpc op hop hdecode => ?_⟩
  · simpa [Nat.max_eq_left hfirst] using cycle_raises_of_overrun (s := s) (by omega)
  · simpa [hsecond] using cycle_raises_of_overrun (s := s) (by omega)
  · refine cycle_raises_of_fetchDecode_error ?_
    rw [fetchDecode_of_lt hpc, wordOfBytes_eq, ← hop]
    exact decodeOrRaise_error hdecode

theorem cycle_answers (s : State) : ∃ t, cycle s = .next t := by
  obtain ⟨e, hraise⟩ | ⟨i, t, -, -, hcycle, -⟩ := cycle_ends s
  · exact ⟨_, hraise⟩
  · exact ⟨t, hcycle⟩

/-- Settles O13: of what a step can be, only the cycle is not a next state by its form. -/
theorem everyStepAnswersANextState : Obligations.EveryStepAnswersANextState := by
  intro s
  obtain ⟨u, -, hnone | ⟨-, hcycle | htick | ⟨k, b, hkey⟩ | ⟨m, hmode⟩ | hquit⟩⟩ := step_cases s
  · exact ⟨_, hnone⟩
  · exact hcycle ▸ cycle_answers u
  · exact ⟨_, htick⟩
  · exact ⟨_, hkey⟩
  · exact ⟨_, hmode⟩
  · exact ⟨_, hquit⟩

/-- Settles O45: the frame of the instruction that completed, or the error. -/
theorem cycleKeepsTheModeOrHaltsWithAnError : Obligations.CycleKeepsTheModeOrHaltsWithAnError := by
  intro s t hnext
  obtain ⟨e, hraise⟩ | ⟨i, u, -, -, hcycle, hframe⟩ := cycle_ends s
  · exact .inr ⟨e, hraise ▸ endCycle_raises s e⟩
  · cases hnext.symm.trans hcycle
    exact .inl ⟨hframe.mode, hframe.outbox, hframe.events⟩

end Sys2Proof.Machine
end

section
/-! Events and run modes (60_exceptions.md): the statements about R119 to R131. -/

namespace Sys2Proof.Machine

variable {s t : State}

/-! ### `Halted` -/

/-- In `Halted` a step takes the waiting event, if any, and does nothing else. -/
theorem step_of_halted {r : HaltReason} (h : s.mode = .halted r) : step s = .next { s with events := s.events.drop 1 } := by
  cases he : s.events with
  | nil =>
    have hsame : { s with events := [] } = s := by rw [← he]
    rw [step_own he, List.drop_nil, hsame]
    simp [ownEvent, h]
  | cons e rest => exact (step_event he).trans (takeEvent_halted (s := { s with events := rest }) e h)

/-- Settles O46, by induction on the number of steps: each takes one event. -/
theorem haltedIsTerminal : Obligations.HaltedIsTerminal := by
  intro n s r hmode
  induction n generalizing s with
  | zero => exact core_run_zero s
  | succ n ih =>
    rw [core_run_succ n (step_of_halted hmode), ih { s with events := s.events.drop 1 } hmode]
    simp

/-! ### Ticks -/

theorem zero_lt_iff_ne_zero (b : Byte) : 0#8 < b ↔ b ≠ 0#8 := by
  simp [BitVec.lt_def, ← BitVec.toNat_inj, Nat.pos_iff_ne_zero]

/-- Counting down takes one from a timer above 0 and leaves one at 0. -/
theorem countDown_eq (b : Byte) : countDown b = BitVec.ofNat 8 (b.toNat - 1) := by
  refine BitVec.eq_of_toNat_eq ?_
  have hb := b.isLt
  unfold countDown
  split
  next hpos =>
    have hpos : 0 < b.toNat := hpos
    rw [BitVec.toNat_sub, BitVec.toNat_ofNat, BitVec.toNat_ofNat]
    omega
  next hzero =>
    have hzero : ¬ 0 < b.toNat := hzero
    rw [BitVec.toNat_ofNat, BitVec.toNat_ofNat]
    omega

theorem countDown_toNat (b : Byte) : (BitVec.ofNat 8 (b.toNat - 1)).toNat = b.toNat - 1 := by
  have hb := b.isLt
  rw [BitVec.toNat_ofNat]
  omega

/-- The frames and tones of `n` ticks that begin with the sound timer at `st`. -/
def tickSignals (d : Display) (st n : Nat) : List Output :=
  (List.range n).flatMap fun k => [.frame d, .tone (decide (k < st))]

/-- The first tick's signals, then those of the ticks that begin with the timer counted down. -/
theorem tickSignals_succ (d : Display) (st n : Nat) :
    tickSignals d st (n + 1) = [.frame d, .tone (decide (0 < st))] ++ tickSignals d (st - 1) n := by
  simp [tickSignals, List.range_succ_eq_map, List.flatMap_map, Nat.lt_sub_iff_add_lt]

/-- What a tick leaves (R127 to R129), with `rest` the events still waiting. -/
def afterTick (s : State) (rest : List Event) : State :=
  { s with
    events := rest, dt := BitVec.ofNat 8 (s.dt.toNat - 1), st := BitVec.ofNat 8 (s.st.toNat - 1)
    outbox := s.outbox ++ [.frame s.disp, .tone (decide (s.st ≠ 0#8))] }

/-- Settles O48: the tick of R127 in either run mode, and what counting down does to a timer. -/
theorem tickPresentsThenCountsDown : Obligations.TickPresentsThenCountsDown := by
  intro s m rest hmode hevents
  rw [step_event_of_running hevents hmode, ← countDown_eq, ← countDown_eq, ← decide_eq_decide.2 (zero_lt_iff_ne_zero s.st)]
  rfl

/-- Settles O49, by induction on the number of ticks: the first one is O48's, and the tone at tick `k + 1` is on for the
timer it leaves as it is at tick `k` for the timer before it. -/
theorem ticksSaturateTheTimersAtZero : Obligations.TicksSaturateTheTimersAtZero := by
  intro n s m hmode hevents
  induction n generalizing s with
  | zero => exact ⟨s, core_run_zero s, rfl, rfl, rfl, rfl, by simp⟩
  | succ n ih =>
    have hstep := tickPresentsThenCountsDown s m _ hmode hevents
    obtain ⟨t, hrun, hdt, hst, hpc, hv, hout⟩ := ih (afterTick s (List.replicate n .tick)) hmode rfl
    rw [afterTick, countDown_toNat] at hdt hst
    refine ⟨t, (core_run_succ n hstep).trans hrun, by omega, by omega, hpc, hv, hout.trans ?_⟩
    have htone : decide (s.st ≠ 0#8) = decide (0 < s.st.toNat) :=
      decide_eq_decide.2 (zero_lt_iff_ne_zero s.st).symm
    show s.outbox ++ [.frame s.disp, .tone (decide (s.st ≠ 0#8))] ++ tickSignals s.disp (afterTick s _).st.toNat n =
      s.outbox ++ tickSignals s.disp s.st.toNat (n + 1)
    rw [tickSignals_succ, ← List.append_assoc, htone, afterTick, countDown_toNat]

/-! ### The other events -/

/-- Settles O50: R131's row for `Key` in a run mode, and no effect in `Halted`. -/
theorem keyEventSetsOneKey : Obligations.KeyEventSetsOneKey := by
  intro s k b rest hevents
  constructor
  · intro m hmode
    exact step_event_of_running hevents hmode
  · intro r hmode
    rw [step_of_halted hmode, hevents]
    rfl

/-- Settles O52: R131's row for `Quit` in either run mode. -/
theorem quitHaltsAtOnce : Obligations.QuitHaltsAtOnce :=
  fun _ _ _ hmode hevents => step_event_of_running hevents hmode

/-- Settles O53: the rows of R131 for `Running(Debug)`; the cycle that blocks is O29's. -/
theorem debugRunsOneCyclePerStep : Obligations.DebugRunsOneCyclePerStep := by
  intro s hmode
  refine ⟨fun hevents => ?_, fun rest hevents => step_event_of_running hevents hmode, fun rest x hevents hfetch hkeys => ?_,
    fun rest hevents => ?_⟩
  · rw [step_own hevents, ownEvent, hmode]
  · rw [step_event_of_running hevents hmode]
    exact (cycle_of_fetchDecode_ok (s := { s with events := rest }) hfetch).trans (exec_ldKey_of_none x hkeys)
  · exact ⟨_, tickPresentsThenCountsDown s .debug rest hmode hevents, rfl, rfl, hmode⟩

/-- Settles O54: R131's rows for the event of the other run mode. -/
theorem eventsOfTheOtherModeHaveNoEffect : Obligations.EventsOfTheOtherModeHaveNoEffect :=
  fun _ _ => ⟨fun hmode hevents => step_event_of_running hevents hmode,
    fun hmode hevents => step_event_of_running hevents hmode⟩

/-! ### The lifecycle (R121) -/

/-- A cycle keeps the mode, or halts with an error and its `pc`. -/
theorem cycle_mode {m : Mode} (hm : s.mode = m) (h : cycle s = .next t) :
    t.mode = m ∨ ∃ e, t.mode = .halted (.error e (some s.pc)) := by
  obtain ⟨hmode, -, -⟩ | ⟨e, u, hu, hmode, -, -⟩ := cycleKeepsTheModeOrHaltsWithAnError s t h
  · exact .inl (hmode.trans hm)
  · cases h.symm.trans hu
    exact .inr ⟨e, hmode⟩

/-- Settles O47, by the mode and the waiting event. -/
theorem lifecycleTransitionsAreTheTable : Obligations.LifecycleTransitionsAreTheTable := by
  intro s t hstep
  cases hmode : s.mode with
  | halted r =>
    cases hstep.symm.trans (step_of_halted hmode)
    exact hmode
  | running m =>
    cases hevents : s.events with
    | nil =>
      rw [step_own hevents, ownEvent, hmode] at hstep
      cases m with
      | standard => exact cycle_mode hmode hstep
      | debug =>
        cases hstep
        exact .inl hmode
    | cons e rest =>
      rw [step_event_of_running hevents hmode] at hstep
      cases e with
      | cycle =>
        cases m with
        | standard => exact cycle_mode (s := { s with events := rest }) hmode hstep
        | debug =>
          cases hstep
          exact .inl hmode
      | step =>
        cases m with
        | standard =>
          cases hstep
          exact .inl hmode
        | debug => exact cycle_mode (s := { s with events := rest }) hmode hstep
      | tick | key =>
        cases hstep
        exact hmode
      | toggleMode =>
        cases hstep
        cases m <;> rfl
      | quit =>
        cases hstep
        rfl

end Sys2Proof.Machine
end

section
/-! Boot, reset and the invariant (70_reset_and_hazards.md): the statements about R140 to R143 and about `State.Inv`. -/

namespace Sys2Proof.Machine

variable {s t : State}

/-! ### Reset and boot -/

/-- With `FONT_BASE` = 0 and `MEM_FILL` = 0 the boot content is the font from address 0 on, and 0 after it. -/
theorem bootByte_eq (a : Nat) : bootByte a = Config.fontData.getD a 0#8 := by
  simp [bootByte, Config.fontBase, Config.memFill]

/-- Settles O55: the fields by computation, memory by its boot content. -/
theorem resetStateIsTheTable : Obligations.ResetStateIsTheTable := by
  refine ⟨rfl, fun x => ?_, rfl, rfl, fun k => ?_, rfl, rfl, Display.cell_clear, fun k => ?_, rfl, fun a _ => bootByte_eq a,
    fun a ha => ?_⟩
  · exact Vector.getElem_replicate x.isLt
  · exact Vector.getElem_replicate k.isLt
  · exact Vector.getElem_replicate k.isLt
  · exact (bootByte_eq a).trans (List.getD_eq_default _ _ ha)

theorem boot_of_empty {image : List Byte} (m : RunMode) (h : image.length = 0) :
    boot image m = State.reset.takeError .emptyProgram none := if_pos h

theorem boot_of_tooLarge {image : List Byte} (m : RunMode) (h : 3584 < image.length) :
    boot image m = State.reset.takeError (.programTooLarge image.length) none := by
  rw [boot, if_neg (by omega)]
  exact if_pos h

theorem boot_of_fits {image : List Byte} (m : RunMode) (h1 : 1 ≤ image.length) (h2 : image.length ≤ 3584) :
    boot image m = { State.reset with mem := Memory.writeList [] 0x200 image, mode := .running m } := by
  rw [boot, if_neg (by omega)]
  exact if_neg (Nat.not_lt.2 h2)

/-- An image that fits ends inside memory (R141). -/
theorem image_end_le {image : List Byte} (h : image.length ≤ 3584) : 0x200 + image.length ≤ Config.memSize := by
  rw [Config.memSize]
  omega

/-- Settles O56: the image is what the bytes written from 0x200 upwards leave there. -/
theorem bootLoadsTheImage : Obligations.BootLoadsTheImage := by
  intro image m hne hfits
  have hread := Memory.read_writeList Memory.wf_nil (image_end_le hfits)
  refine ⟨Memory.writeList [] 0x200 image, boot_of_fits m hne hfits, Memory.wf_writeList Memory.wf_nil (image_end_le hfits),
    fun j hj => ?_, fun a ha => ?_⟩
  · rw [hread, if_pos (Nat.le_add_right _ _), Nat.add_sub_cancel_left]
    simp [hj]
  · rw [hread]
    split
    next hle => exact List.getD_eq_default _ _ (by omega)
    next => rfl

/-- Settles O57: a refused boot is halted, and from there O46 speaks. -/
theorem bootRefusesEmptyAndTooLargeImages : Obligations.BootRefusesEmptyAndTooLargeImages := by
  intro image m evs n
  constructor
  · intro hempty
    rw [boot_of_empty m hempty]
    exact ⟨rfl, haltedIsTerminal n { State.reset.takeError .emptyProgram none with events := evs } _ rfl⟩
  · intro hlarge
    rw [boot_of_tooLarge m hlarge]
    exact ⟨rfl, haltedIsTerminal n
      { State.reset.takeError (.programTooLarge image.length) none with events := evs } _ rfl⟩

/-! ### The invariant of a running machine: its addresses -/

/-- What the invariant asks of a running machine besides memory: of `pc` (R21, R22) and of the occupied slots (R95). -/
structure AddressesOk (pc : Word) (stack : Vector Word 16) (sp : Fin 17) : Prop where
  pcEven : pc.toNat % 2 = 0
  pcBound : pc.toNat ≤ 0x10FE
  stackOk : ∀ k : Fin 16, k.val < sp.val → stack[k].toNat % 2 = 0 ∧ stack[k].toNat ≤ 0x1000

theorem State.inv_iff : s.Inv ↔ s.mem.wf ∧ (s.Running → AddressesOk s.pc s.stack s.sp) := by
  constructor
  · rintro ⟨hmem, heven, hbound, hstack⟩
    exact ⟨hmem, fun hrun => ⟨heven hrun, hbound hrun, hstack hrun⟩⟩
  · rintro ⟨hmem, haddr⟩
    exact ⟨hmem, fun hrun => (haddr hrun).pcEven, fun hrun => (haddr hrun).pcBound, fun hrun => (haddr hrun).stackOk⟩

theorem State.Inv.addressesOk (h : s.Inv) (hrun : s.Running) : AddressesOk s.pc s.stack s.sp :=
  (State.inv_iff.1 h).2 hrun

/-- The invariant does not look at the other components, nor at `pc` and the stack of a halted machine. -/
theorem State.Inv.of_same_addresses (h : s.Inv) (hmem : t.mem.wf)
    (hsame : t.Running → s.Running ∧ t.pc = s.pc ∧ t.stack = s.stack ∧ t.sp = s.sp) : t.Inv := by
  refine State.inv_iff.2 ⟨hmem, fun hrun => ?_⟩
  obtain ⟨hrun', hpc, hstack, hsp⟩ := hsame hrun
  rw [hpc, hstack, hsp]
  exact h.addressesOk hrun'

/-- Taking a fatal error keeps the invariant: the machine is halted, and its memory is canonical by construction. -/
theorem State.inv_takeError (s : State) (e : Fault) (p : Option Word) : (s.takeError e p).Inv :=
  State.inv_iff.2 ⟨Memory.wf_ofCells _, fun hrun => absurd hrun (State.takeError_not_running s e p)⟩

theorem State.inv_reset : State.reset.Inv := by
  have hsp : State.reset.sp.val = 0 := rfl
  exact State.inv_iff.2 ⟨Memory.wf_nil, fun _ => ⟨by decide, by decide, fun k hk => by omega⟩⟩

/-- Settles O58: an image keeps memory canonical and the addresses those of reset, and a refused boot is an error. -/
theorem invariantHoldsAtResetAndBoot : Obligations.InvariantHoldsAtResetAndBoot := by
  refine ⟨State.inv_reset, fun image m => ?_⟩
  by_cases hempty : image.length = 0
  · exact boot_of_empty m hempty ▸ State.inv_takeError _ _ _
  by_cases hlarge : 3584 < image.length
  · exact boot_of_tooLarge m hlarge ▸ State.inv_takeError _ _ _
  have hfits : image.length ≤ 3584 := Nat.le_of_not_lt hlarge
  rw [boot_of_fits m (Nat.pos_of_ne_zero hempty) hfits]
  exact State.inv_reset.of_same_addresses (Memory.wf_writeList Memory.wf_nil (image_end_le hfits))
    fun _ => ⟨⟨_, rfl⟩, rfl, rfl, rfl⟩

/-! ### What an instruction does to the addresses -/

section Addresses

variable {pc : Word} {stack : Vector Word 16} {sp : Fin 17}

/-- Where both bytes of the instruction exist, `pc` may advance by 2 or by 4. -/
theorem AddressesOk.advance (h : AddressesOk pc stack sp) (hpc : pc.toNat + 1 < 4096) {w : Word}
    (hw : w = pc ∨ w = pc + 2#16 ∨ w = pc + 4#16) : AddressesOk w stack sp := by
  have heven := h.pcEven
  obtain rfl | rfl | rfl := hw
  · exact h
  · exact ⟨by bv_omega, by bv_omega, h.stackOk⟩
  · exact ⟨by bv_omega, by bv_omega, h.stackOk⟩

theorem AddressesOk.jump (h : AddressesOk pc stack sp) {w : Word} (heven : w.toNat % 2 = 0) (hbound : w.toNat ≤ 0x10FE) :
    AddressesOk w stack sp :=
  ⟨heven, hbound, h.stackOk⟩

/-- A popped address is an occupied slot's. -/
theorem AddressesOk.pop (h : AddressesOk pc stack sp) (k : Fin 16) (hsp : sp.val = k.val + 1) :
    AddressesOk stack[k] stack k.castSucc := by
  obtain ⟨heven, hbound⟩ := h.stackOk k (by omega)
  exact ⟨heven, by omega, fun j hj => h.stackOk j (by rw [Fin.val_castSucc] at hj; omega)⟩

/-- Where both bytes of the CALL exist, the address after it may be pushed. -/
theorem AddressesOk.push (h : AddressesOk pc stack sp) (hpc : pc.toNat + 1 < 4096) (hroom : sp.val < 16) :
    AddressesOk pc (stack.set sp.val (pc + 2#16) hroom) ⟨sp.val + 1, Nat.succ_lt_succ hroom⟩ := by
  refine ⟨h.pcEven, h.pcBound, fun k hk => ?_⟩
  by_cases hkey : sp.val = k.val
  · have heven := h.pcEven
    have hslot : (stack.set sp.val (pc + 2#16) hroom)[k] = pc + 2#16 := by simp [hkey]
    rw [hslot]
    bv_omega
  · have hslot : (stack.set sp.val (pc + 2#16) hroom)[k] = stack[k] := Vector.getElem_set_ne hroom k.isLt hkey
    rw [hslot]
    exact h.stackOk k (Nat.lt_of_le_of_ne (Nat.le_of_lt_succ hk) (Ne.symm hkey))

end Addresses

/-! ### Every step keeps the invariant -/

theorem not_running_of_raises {o : Host.Outcome State Fault Refusal} {e : Fault} (h : Raises o s e) (ho : o = .next t) :
    ¬ t.Running := by
  rintro ⟨m, hm⟩
  obtain ⟨u, hu, hmode, -, -⟩ := h
  cases hu.symm.trans ho
  cases hm.symm.trans hmode

theorem addr12_toNat (a : Addr12) : (BitVec.ofNat 16 a.toNat).toNat = a.toNat := by
  have := a.isLt
  rw [BitVec.toNat_ofNat]
  omega

/-- A target of BNNN stays below 2^16 (R98). -/
theorem jumpTarget_toNat (a : Addr12) (b : Byte) : (BitVec.ofNat 16 (a.toNat + b.toNat)).toNat = a.toNat + b.toNat := by
  have := a.isLt
  have := b.isLt
  rw [BitVec.toNat_ofNat]
  omega

/-- An instruction that completes leaves good addresses: a sequential form advances `pc`, and the four others jump to
a checked target or to a popped address. -/
theorem addressesOk_of_exec {i : Instr} (h : AddressesOk s.pc s.stack s.sp) (hpc : s.pc.toNat + 1 < 4096)
    (hexec : exec i s = .next t) (hrun : t.Running) : AddressesOk t.pc t.stack t.sp := by
  by_cases hseq : Sequential i
  · obtain ⟨hret, -, hcall, -⟩ := id hseq
    obtain ⟨hframe, hadvance⟩ := completed_of_exec hexec hrun
    rw [hframe.stack hcall, hframe.sp ⟨hcall, hret⟩]
    exact h.advance hpc (hadvance hseq)
  · cases i
    case ret =>
      obtain ⟨hpop, hempty⟩ := retPopsTheReturnAddress s
      by_cases hsp : s.sp.val = 0
      · exact absurd hrun (not_running_of_raises (hempty hsp) hexec)
      · obtain ⟨k, hk⟩ := Nat.exists_eq_succ_of_ne_zero hsp
        have hk16 : k < 16 := by omega
        cases hexec.symm.trans (hpop k hk16 hk)
        exact h.pop ⟨k, hk16⟩ hk
    case jp a =>
      obtain ⟨heven, hodd⟩ := jpLoadsEvenTargets s a
      obtain hmod | hmod := Nat.mod_two_eq_zero_or_one a.toNat
      · cases hexec.symm.trans (heven hmod)
        have := a.isLt
        exact h.jump (by rwa [addr12_toNat]) (by rw [addr12_toNat]; omega)
      · exact absurd hrun (not_running_of_raises (hodd hmod) hexec)
    case call a =>
      obtain ⟨heven, hodd, hfull⟩ := callPushesTheNextAddress s a
      obtain hmod | hmod := Nat.mod_two_eq_zero_or_one a.toNat
      · by_cases hroom : s.sp.val < 16
        · cases hexec.symm.trans (heven hroom hmod)
          have := a.isLt
          exact (h.push hpc hroom).jump (by rwa [addr12_toNat]) (by rw [addr12_toNat]; omega)
        · exact absurd hrun (not_running_of_raises (hfull hmod (by omega)) hexec)
      · exact absurd hrun (not_running_of_raises (hodd hmod) hexec)
    case jpV0 a =>
      obtain ⟨heven, hodd⟩ := jpV0AddsTheOffsetRegister s a
      obtain hmod | hmod := Nat.mod_two_eq_zero_or_one (a.toNat + s.v[0].toNat)
      · cases hexec.symm.trans (heven hmod)
        have := a.isLt
        have := s.v[0].isLt
        exact h.jump (by rwa [jumpTarget_toNat]) (by rw [jumpTarget_toNat]; omega)
      · exact absurd hrun (not_running_of_raises (hodd hmod) hexec)
    all_goals exact absurd (by simp [Sequential]) hseq

theorem State.Inv.cycle (h : s.Inv) (hrun : s.Running) (hcycle : cycle s = .next t) : t.Inv := by
  obtain ⟨e, hraise⟩ | ⟨i, u, hpc, hexec, hcycle', hframe⟩ := cycle_ends s
  · cases hcycle.symm.trans hraise
    exact State.inv_takeError s e _
  · cases hcycle.symm.trans hcycle'
    exact State.inv_iff.2 ⟨hframe.memWf h.memWf, addressesOk_of_exec (h.addressesOk hrun) hpc hexec⟩

/-- Settles O59, by what a step can be: an event writes neither memory nor an address, and a cycle raises or executes one
instruction. -/
theorem everyStepKeepsTheInvariant : Obligations.EveryStepKeepsTheInvariant := by
  intro s t hinv hstep
  obtain ⟨u, hu, hcases⟩ := step_cases s
  have hinv' : u.Inv := by
    obtain rfl | ⟨e, -, hu⟩ := hu
    · exact hinv
    · exact hu ▸ hinv.of_same_addresses hinv.memWf fun hrun => ⟨hrun, rfl, rfl, rfl⟩
  obtain hnone | ⟨hrun, hcycle | htick | ⟨k, b, hkey⟩ | ⟨m, hmode⟩ | hquit⟩ := hcases
  · cases hstep.symm.trans hnone
    exact hinv'
  · exact hinv'.cycle hrun (hcycle.symm.trans hstep)
  · cases hstep.symm.trans htick
    exact hinv'.of_same_addresses hinv'.memWf fun _ => ⟨hrun, rfl, rfl, rfl⟩
  · cases hstep.symm.trans hkey
    exact hinv'.of_same_addresses hinv'.memWf fun _ => ⟨hrun, rfl, rfl, rfl⟩
  · cases hstep.symm.trans hmode
    exact hinv'.of_same_addresses hinv'.memWf fun _ => ⟨hrun, rfl, rfl, rfl⟩
  · cases hstep.symm.trans hquit
    exact hinv'.of_same_addresses hinv'.memWf fun _ => ⟨hrun, rfl, rfl, rfl⟩

end Sys2Proof.Machine
end
